-- ==== Sys2Proof/Word.lean ====
section
/-! DEFINITION. The widths of the block's stored values (spec/00_scope.md R8, spec/10_state.md R23 to R47). -/

namespace Sys2Proof

/-- A cell of BUF, LOG or ILOG (R23, R27). -/
abbrev Byte := BitVec 8

/-- A cell of PQ_T, and the parity accumulators `a` and `b` (R29, R131). -/
abbrev Half := BitVec 16

/-- A register, a command word, a cell of CRC_T (R28, R32 to R42). -/
abbrev Word := BitVec 32

/-- A block offset on the host bus window: 16 bits (R46, R50). -/
abbrev Offset := BitVec 16

end Sys2Proof
end

