-- ==== Sys2Proof/Syntax.lean ====
section
/-! DEFINITION. The commands of the opcode table (spec/30_encoding.md R73), and the host statements that drive the block
(R79, R80). -/

namespace Sys2Proof

/-- The seven commands, one constructor per row of spec/opcode_table.json (R73). -/
inductive Instr where
  /-- INIT: build the tables (R90). -/
  | init
  /-- EDC off, len: the EDC of BUF[off .. off+len-1] (R120). Both operands are plain byte counts (R72). -/
  | edc (off len : Nat)
  /-- EDCW: the sector EDC, written into the sector (R121). -/
  | edcw
  /-- PPAR: the P parity (R135). -/
  | ppar
  /-- QPAR: the Q parity (R138). -/
  | qpar
  /-- HDR: the fixed fields of the sector (R154). -/
  | hdr
  /-- ENCODE: the whole sector encoding (R155). -/
  | encode
  deriving DecidableEq, Repr

/-- One action of the host agent. -/
inductive HostStmt where
  /-- `MemRead(a, n)` (R56): rd8, rd16, rd32 of R79. -/
  | read (a : Offset) (n : Nat)
  /-- `MemWrite(a, n, v)` (R57): wr8, wr16, wr32 of R79. -/
  | write (a : Offset) (n : Nat) (v : Word)
  /-- `wait`: read STATUS until BUSY = 0 (R79). -/
  | wait
  /-- `check`: read STATUS, and the program's claim fails unless bits [11:8] are 0 (R80). -/
  | check
  /-- Assert the block's reset input (R190). -/
  | reset
  deriving DecidableEq, Repr

/-- A statement of the assembly syntax (R79, R80), which `Machine.expand` turns into host statements. -/
inductive AsmStmt where
  | wr32 (a : Offset) (v : Word)
  | wr16 (a : Offset) (v : Half)
  | wr8 (a : Offset) (v : Byte)
  | rd32 (a : Offset)
  | rd16 (a : Offset)
  | rd8 (a : Offset)
  | fill (a : Offset) (n : Nat) (b : Byte)
  | load (a : Offset) (bytes : List Byte)
  | wait
  /-- A command mnemonic: its CMD write and a `wait`. -/
  | command (i : Instr)
  /-- EDCS, the sector EDC without writing BUF: `EDC 0, 2064`. -/
  | edcs
  /-- `issue w`: the CMD write with no wait. -/
  | issue (w : Word)
  | check
  /-- The reset input (R190); not a bus access. -/
  | reset
  deriving DecidableEq, Repr

end Sys2Proof
end

