-- ==== Sys2Proof/WellFormed.lean ====
section
/-! DEFINITION. Which terms stand for something the encoding or the bus can carry. -/

namespace Sys2Proof

/-- OFF and LEN are 12-bit fields (spec/30_encoding.md R71, R72). Whether OFF + LEN ≤ 2352 is checked when the command
executes, not here (R72, R174). -/
def Instr.wellFormed : Instr → Bool
  | .edc off len => decide (off < 4096) && decide (len < 4096)
  | .init | .edcw | .ppar | .qpar | .hdr | .encode => true

/-- A host access has width 1, 2 or 4 (R58), and a written value fits the width. Other accesses are terms the bus
refuses as `HostAccessFault`; they still have a meaning. -/
def HostStmt.wellFormed : HostStmt → Bool
  | .read _ n => n == 1 || n == 2 || n == 4
  | .write _ n v => (n == 1 || n == 2 || n == 4) && decide (v.toNat < 2 ^ (8 * n))
  | .wait | .check | .reset => true

end Sys2Proof
end

