-- ==== Sys2Proof/Decode.lean ====
section
/-! DEFINITION. The decoder of spec/30_encoding.md R77 and the encoder of R71 to R73. -/

namespace Sys2Proof

/-- Why a command word is ILLEGAL. -/
inductive IllegalReason where
  /-- OP is 0x00 or 0x08..0xFF (R74). -/
  | unassignedOp
  /-- OP is assigned, is not EDC, and a bit of [31:8] is set (R75). -/
  | reservedBits
  /-- Not four bytes: no command word at all (R70). -/
  | notFourBytes
  deriving DecidableEq, Repr

/-- What a command word decodes to: one of the seven commands, or ILLEGAL (R77). -/
inductive Decoded where
  | command (i : Instr)
  | illegal (why : IllegalReason)
  deriving DecidableEq, Repr

/-- A command whose bits [31:8] are reserved: they must be zero (R73, R75). -/
def decodeBare (w : Word) (i : Instr) : Decoded :=
  if w.extractLsb' 8 24 = 0#24 then .command i else .illegal .reservedBits

/-- `decode(w)` of R77. Total. -/
def decode (w : Word) : Decoded :=
  match (w.extractLsb' 0 8).toNat with
  | 0x01 => decodeBare w .init
  | 0x02 => .command (.edc (w.extractLsb' 8 12).toNat (w.extractLsb' 20 12).toNat)
  | 0x03 => decodeBare w .edcw
  | 0x04 => decodeBare w .ppar
  | 0x05 => decodeBare w .qpar
  | 0x06 => decodeBare w .hdr
  | 0x07 => decodeBare w .encode
  | _ => .illegal .unassignedOp

/-- The four bytes of a word, lowest offset first: a command word is one little-endian 32-bit write (R53, R70). -/
def wordBytes (w : Word) : List Byte :=
  [w.extractLsb' 0 8, w.extractLsb' 8 8, w.extractLsb' 16 8, w.extractLsb' 24 8]

/-- The word of four bytes, lowest offset first (R53). -/
def bytesWord (b0 b1 b2 b3 : Byte) : Word := b3 ++ b2 ++ b1 ++ b0

/-- Decoding on any bytes: four bytes in bus order, anything else is refused by name. -/
def decodeBytes : List Byte → Decoded
  | [b0, b1, b2, b3] => decode (bytesWord b0 b1 b2 b3)
  | _ => .illegal .notFourBytes

/-- The OP field of each command (R73). -/
def Instr.opcode : Instr → Byte
  | .init => 0x01#8
  | .edc _ _ => 0x02#8
  | .edcw => 0x03#8
  | .ppar => 0x04#8
  | .qpar => 0x05#8
  | .hdr => 0x06#8
  | .encode => 0x07#8

/-- The word of a well-formed command: LEN, OFF and OP in their fields, every reserved bit 0 (R71, R73). -/
def encode : Instr → Word
  | .edc off len => BitVec.ofNat 12 len ++ BitVec.ofNat 12 off ++ (0x02#8)
  | i => 0#24 ++ i.opcode

/-- The instruction the decoder reads from a row of spec/opcode_table.json: the bits above `nbits` are 0, and the word
is laid out in bus order. -/
def decodeTableWord (nbits w : Nat) : Option Instr :=
  match decodeBytes (wordBytes (BitVec.ofNat 32 (w % 2 ^ nbits))) with
  | .command i => some i
  | .illegal _ => none

end Sys2Proof
end

