-- ==== Sys2Proof/Config.lean ====
section
/-! DEFINITION. The block's fixed constants (spec/00_scope.md R6) and the two values the spec leaves OPEN (R7). -/

namespace Sys2Proof.Config

/-- GF_POLY, x^8+x^4+x^3+x^2+1, as a 9-bit value (R6). -/
def gfPoly : BitVec 9 := 0x11D#9

/-- EDC_POLY (R6). -/
def edcPoly : Word := 0x8001801B#32

/-- EDC_POLY_REFLECTED (R6, R117). -/
def edcPolyReflected : Word := 0xD8018001#32

/-- SECTOR_BYTES: the number of BUF cells (R6, R23). -/
def sectorBytes : Nat := 2352

/-- DATA_BYTES: the length ENCODE demands of DLEN (R6, R155). -/
def dataBytes : Word := 2048#32

/-- LBA_MAX, the largest LBA whose minute is at most 99 (R6, R151). -/
def lbaMax : Word := 449849#32

/-- SYNC (R6, R153). -/
def sync : List Byte :=
  [0x00#8, 0xFF#8, 0xFF#8, 0xFF#8, 0xFF#8, 0xFF#8, 0xFF#8, 0xFF#8, 0xFF#8, 0xFF#8, 0xFF#8, 0x00#8]

/-- MODE_BYTE (R6, R153). -/
def modeByte : Byte := 0x01#8

/-- BLOCK_BASE, the host address of block offset 0: OPEN (R7, R50), so no value is given here (log entry 11). -/
opaque blockBase : Nat

/-- The number of host steps between the acceptance of the n-th command and its completion step: finite and
unbounded, and not given by the spec (R42, R197), so a FREE VALUE with no body (log entry 3). -/
opaque latency : Nat → Nat

end Sys2Proof.Config
end

