-- ==== Sys2Proof/Machine/State.lean ====
section
/-! DEFINITION. The state record of spec/10_state.md R47, the error codes of R38, the model faults of
spec/60_exceptions.md R177, and the state after reset (R45). -/

namespace Sys2Proof.Machine

/-- STATUS.ERR: the outcome of the last completed command (R38). The codes 0x5..0xE are never produced, so they have
no constructor (log entry 15). -/
inductive Err where
  /-- 0x0: the command completed normally. -/
  | none
  /-- 0x1: ENCODE with DLEN ≠ 2048 (R172). -/
  | sizeMismatch
  /-- 0x2: the word decodes to ILLEGAL (R173). -/
  | illegalCmd
  /-- 0x3: EDC with OFF + LEN > 2352 (R174). -/
  | range
  /-- 0x4: HDR or ENCODE with LBA > 449849 (R175). -/
  | lbaRange
  /-- 0xF: a zero divisor in the table build, and any command refused under FATAL (R178). -/
  | invariant
  deriving DecidableEq, Repr

/-- The place a read found to hold no value (R26). -/
inductive Loc where
  | buf (i : Nat)
  | crc (n : Nat)
  | pqt (r v : Nat)
  | lba
  | dlen
  | pend
  /-- A host read at this block offset (R56). -/
  | bus (a : Offset)
  deriving DecidableEq, Repr

/-- The model faults of R177. A step that raises one records it in `State.faults`. The first three end the run there
(R82): every later step answers the fault, for nothing after it is modelled (log entry 6). -/
inductive Fault where
  /-- Raised by a command or a host read that reads a BUF cell, a table cell or a register holding no value: a stop the spec states (R26, R56, R177).
  Safe: the hardware goes on with whatever the cell powered up with. -/
  | unwrittenRead (loc : Loc)
  /-- Raised by an unmapped, misaligned, wrong-width or wrong-direction host access (R59). Safe: the hardware's response
  is unspecified. -/
  | hostAccessFault (a : Offset) (n : Nat)
  /-- Raised by a host access other than a read of STATUS, LBA or DLEN while BUSY = 1 (R196). Safe: the hardware's
  response is unspecified. -/
  | hostHazard (a : Offset)
  /-- Raised by a table build whose division check failed (R178). The run does not end: the block goes on, refusing every
  command. Exact, and unreachable with the fixed constants (R104). -/
  | invariant
  deriving DecidableEq, Repr

/-- Reasons for having no meaning to give. -/
inductive Refusal where
  /-- Raised by an arm of `exec` whose instruction has no meaning yet. Safe. No arm raises it: every command has its
  meaning. -/
  | notModelled (mnemonic : String)
  deriving DecidableEq, Repr

/-- The four tables; a cell that holds no value is `none` (R27 to R30). -/
structure Tables where
  /-- LOG: the discrete logarithm (R27). -/
  log : Vector (Option Byte) 256
  /-- ILOG: the antilogarithm (R27). -/
  ilog : Vector (Option Byte) 256
  /-- CRC_T (R28). -/
  crc : Vector (Option Word) 256
  /-- PQ_T[r][v]: high byte the V1 product, low byte the V0 product (R29). -/
  pqt : Vector (Vector (Option Half) 256) 43
  deriving DecidableEq, Repr

/-- Every table cell holds no value (R30). -/
def Tables.unwritten : Tables where
  log := Vector.replicate 256 none
  ilog := Vector.replicate 256 none
  crc := Vector.replicate 256 none
  pqt := Vector.replicate 43 (Vector.replicate 256 none)

/-- The sector buffer as plain data: (offset, byte) pairs in strictly rising order of offset. An unlisted offset holds
NO VALUE (R23, R45; log entry 2). -/
abbrev Memory := List Host.Cell

/-- The machine (R47), and the host that drives it. -/
structure State where
  /-- BUF (R23). -/
  buf : Memory
  /-- LOG, ILOG, CRC_T and PQ_T (R27 to R30). -/
  tables : Tables
  /-- The TV guard, which STATUS.TV mirrors (R31, R36). -/
  tv : Bool
  /-- STATUS.BUSY (R34). -/
  busy : Bool
  /-- STATUS.DONE (R35). -/
  done : Bool
  /-- STATUS.FATAL (R37). -/
  fatal : Bool
  /-- STATUS.ERR (R38). -/
  err : Err
  /-- PEND: the accepted command word (R42). -/
  pend : Option Word
  /-- LBA; no value until the host writes it (R39). -/
  lba : Option Word
  /-- DLEN; no value until the host writes it (R40). -/
  dlen : Option Word
  /-- EDC_RESULT; no value until a command writes it (R41). -/
  edcResult : Option Word
  /-- The model fault record: every model fault the run has met, oldest first (R45, R177; log entry 6). -/
  faults : List Fault
  /-- The model's own: the host statements not yet executed (R82; log entry 5). -/
  host : List HostStmt
  /-- The model's own: the values the host's reads returned, oldest first (R56; log entry 5). -/
  reads : List Word
  /-- The model's own: a `check` saw ERR ≠ 0 (R80; log entry 14). -/
  checkFailed : Bool
  /-- The model's own: how many commands have been accepted, the counter `Config.latency` is applied to
  (log entry 3). -/
  accepted : Nat
  /-- The model's own: how many host steps still precede the completion step (R42; log entry 3). -/
  stall : Nat
  deriving DecidableEq, Repr

/-- The state after reset (R45), with no host statement to run. -/
def State.reset : State where
  buf := []
  tables := Tables.unwritten
  tv := false
  busy := false
  done := false
  fatal := false
  err := .none
  pend := none
  lba := none
  dlen := none
  edcResult := none
  faults := []
  host := []
  reads := []
  checkFailed := false
  accepted := 0
  stall := 0

end Sys2Proof.Machine
end

