-- ==== Sys2Proof/Machine/Flags.lean ====
section
/-! DEFINITION. STATUS: its word (spec/10_state.md R33, R36), and the three updates it ever gets, by acceptance (R32),
by completion (R42) and by a CMD write refused under FATAL (R32). No other flag exists (R44). -/

namespace Sys2Proof.Machine

/-- The 4-bit code of an outcome (R38). -/
def Err.code : Err → BitVec 4
  | .none => 0x0#4
  | .sizeMismatch => 0x1#4
  | .illegalCmd => 0x2#4
  | .range => 0x3#4
  | .lbaRange => 0x4#4
  | .invariant => 0xF#4

/-- The word a read of STATUS gives: BUSY, DONE, TV, FATAL in bits 0 to 3, ERR in [11:8], every reserved bit 0 (R33). -/
def State.statusWord (s : State) : Word :=
  0#20 ++ s.err.code ++ 0#4 ++ BitVec.ofBool s.fatal ++ BitVec.ofBool s.tv ++ BitVec.ofBool s.done ++ BitVec.ofBool s.busy

/-- The effect of acceptance on the block: `PEND <- w; BUSY <- 1; DONE <- 0; ERR <- 0` (R32). It is also all the
recovery a command error needs (R181). -/
def latch (w : Word) (s : State) : State :=
  { s with pend := some w, busy := true, done := false, err := .none }

/-- The completion update: `ERR <- err; DONE <- 1; BUSY <- 0; PEND <- none` (R42). -/
def complete (e : Err) (s : State) : State :=
  { s with err := e, done := true, busy := false, pend := none }

/-- A CMD write while FATAL = 1: `DONE <- 1; ERR <- 0xF` and nothing else (R32). -/
def refuseUnderFatal (s : State) : State :=
  { s with done := true, err := .invariant }

end Sys2Proof.Machine
end

