-- ==== Sys2Proof/Machine/Ops.lean ====
section
/-! DEFINITION. The operations the commands share: the sector buffer, reading cells that may hold no value
(spec/10_state.md R26), and how a command ends (R42; spec/60_exceptions.md R176, R178). -/

namespace Sys2Proof.Machine

/-! ### The sector buffer as a memory -/

/-- The byte at an offset, or no value. -/
def Memory.read : Memory → Nat → Option Byte
  | [], _ => none
  | (k, v) :: m, a => if k = a then some v else Memory.read m a

/-- Write one byte, keeping the offsets strictly rising. -/
def Memory.write : Memory → Nat → Byte → Memory
  | [], a, b => [(a, b)]
  | (k, v) :: m, a, b =>
    if a < k then (a, b) :: (k, v) :: m
    else if a = k then (a, b) :: m
    else (k, v) :: Memory.write m a b

/-- Write bytes at consecutive offsets, lowest first. -/
def Memory.writeBytes : Memory → Nat → List Byte → Memory
  | m, _, [] => m
  | m, a, b :: bs => Memory.writeBytes (Memory.write m a b) (a + 1) bs

/-- The canonical form: offsets strictly rising, all of them BUF offsets. An unlisted offset has no value, so no entry
can equal it. -/
abbrev Memory.wf (m : Memory) : Prop :=
  m.Pairwise (fun x y => x.1 < y.1) ∧ ∀ c ∈ m, c.1 < Config.sectorBytes

/-! ### Bytes of wider values (R53) -/

/-- Byte `t` of a word, byte 0 the least significant. -/
def wordByte (w : Word) (t : Nat) : Byte := w.extractLsb' (8 * t) 8

/-- Byte `t` of a 16-bit value. -/
def halfByte (h : Half) (t : Nat) : Byte := h.extractLsb' (8 * t) 8

/-- The low lane of a packed value, bits [7:0] (R55, R132). -/
def lowLane (h : Half) : Byte := halfByte h 0

/-- The high lane of a packed value, bits [15:8] (R55, R132). -/
def highLane (h : Half) : Byte := halfByte h 1

/-- A 32-bit value from its bytes, lowest first, zero-extended: the sum of R56. -/
def assembleBytes : List Byte → Word
  | [] => 0#32
  | b :: bs => (assembleBytes bs <<< 8) ||| b.setWidth 32

/-! ### How a command can end early -/

/-- What stops a command before it has its effect: a command error, or a model fault (R171). -/
inductive Stop where
  | raised (e : Err)
  | fault (f : Fault)
  deriving DecidableEq, Repr

/-- A computation of the completion step. -/
abbrev Eff (α : Type) := Except Stop α

/-- Give the value of a cell or register. Where it holds none the spec itself stops the step: R26, "the step raises the model
fault `UnwrittenRead(location)` ... instead of computing". -/
def valueAt {α : Type} (loc : Loc) : Option α → Eff α
  | some v => .ok v
  | none => .error (.fault (.unwrittenRead loc))

/-- Read BUF[i] (R10, R26). -/
def readBuf (s : State) (i : Nat) : Eff Byte := valueAt (.buf i) (s.buf.read i)

/-- Read BUF[off .. off+len-1] in increasing order of offset; empty when `len` is 0. -/
def readRange (s : State) (off len : Nat) : Eff (List Byte) :=
  (List.range len).mapM fun t => readBuf s (off + t)

/-- The CRC_T cell, or no value. -/
def Tables.crcAt (t : Tables) (n : Nat) : Option Word := t.crc[n]?.join

/-- The PQ_T cell, or no value. -/
def Tables.pqtAt (t : Tables) (r v : Nat) : Option Half :=
  (t.pqt[r]?).bind fun row => row[v]?.join

/-- Read CRC_T[n]. -/
def readCrc (s : State) (n : Nat) : Eff Word := valueAt (.crc n) (s.tables.crcAt n)

/-- Read PQ_T[r][v]. -/
def readPqt (s : State) (r v : Nat) : Eff Half := valueAt (.pqt r v) (s.tables.pqtAt r v)

/-- Write BUF at consecutive offsets. -/
def writeBuf (s : State) (a : Nat) (bs : List Byte) : State :=
  { s with buf := s.buf.writeBytes a bs }

/-- Put a complete set of tables in place and set TV with it (R31). -/
def setTables (t : Tables) (s : State) : State := { s with tables := t, tv := true }

/-- Write the EDC_RESULT register (R41). -/
def setEdcResult (e : Word) (s : State) : State := { s with edcResult := some e }

/-! ### Ending a command -/

/-- `fault F`: record a model fault (R177). -/
def recordFault (f : Fault) (s : State) : State := { s with faults := s.faults ++ [f] }

/-- `raise E` (R176): the error completion. Every write the command would have made is discarded, so it acts on the state
the command started from. INVARIANT also sets FATAL, leaves every table cell without a value, and records the fault
(R178). This is the block's whole trap entry; there is no return from it, for acceptance of the next command is all the
recovery there is (R181, `latch`). -/
def raiseErr (e : Err) (s : State) : State :=
  match e with
  | .invariant =>
    complete .invariant (recordFault .invariant { s with fatal := true, tv := false, tables := Tables.unwritten })
  | e => complete e s

/-- The outcome type of this machine. -/
abbrev Outcome := Host.Outcome State Fault Refusal

/-- End the completion step that started in `s` (R42): apply the effects, or discard them and report the error, or end
with the model fault, which the step records (`recordOutcome`). -/
def finish (s : State) : Eff State → Outcome
  | .ok s' => .next (complete .none s')
  | .error (.raised e) => .next (raiseErr e s)
  | .error (.fault f) => .fault f

end Sys2Proof.Machine
end

