-- ==== Sys2Proof/Machine/Operands.lean ====
section
/-! DEFINITION. Where a command's operands come from: its OFF and LEN fields, and the LBA and DLEN registers
(spec/30_encoding.md R72). -/

namespace Sys2Proof.Machine

/-- Read the LBA register (R39): `UnwrittenRead` if it holds no value. -/
def readLba (s : State) : Eff Word := valueAt .lba s.lba

/-- Read the DLEN register (R40): `UnwrittenRead` if it holds no value. -/
def readDlen (s : State) : Eff Word := valueAt .dlen s.dlen

/-- EDC's range check: OFF + LEN ≤ 2352, else RANGE (R72, R174). -/
def checkRange (off len : Nat) : Eff Unit :=
  if off + len ≤ Config.sectorBytes then .ok () else .error (.raised .range)

/-- ENCODE's length check: DLEN = 2048, else SIZE_MISMATCH (R172). -/
def checkLength (n : Word) : Eff Unit :=
  if n = Config.dataBytes then .ok () else .error (.raised .sizeMismatch)

/-- The timecode range check of HDR and ENCODE: LBA ≤ 449849, unsigned, else LBA_RANGE (R151, R175). -/
def checkLba (l : Word) : Eff Unit :=
  if l ≤ Config.lbaMax then .ok () else .error (.raised .lbaRange)

end Sys2Proof.Machine
end

