-- ==== Sys2Proof/Machine/Crc.lean ====
section
/-! DEFINITION. The CRC table and the checksum function (spec/41_edc.md R115 to R122). -/

namespace Sys2Proof.Machine

/-- One round of R115: shift left; if bit 31 was set, XOR with EDC_POLY. -/
def crcRound (r : Word) : Word := if r.getLsbD 31 then (r <<< 1) ^^^ Config.edcPoly else r <<< 1

/-- A function applied `n` times. -/
def repeatN {α : Type} (f : α → α) : Nat → α → α
  | 0, x => x
  | n + 1, x => repeatN f n (f x)

/-- CRC_T[n] by `build_crc()` (R115): the reflected index in bits [31:24], eight rounds, reflected back (R116). -/
def crcEntry (n : Byte) : Word := (repeatN crcRound 8 (n.reverse.setWidth 32 <<< 24)).reverse

/-- `build_crc()` (R115). -/
def buildCrc : Vector (Option Word) 256 := Vector.ofFn fun n => some (crcEntry (BitVec.ofNat 8 n.val))

/-- One round of the least-significant-bit-first form (R117, R122). -/
def crcRoundLsb (e : Word) : Word := (e >>> 1) ^^^ (if e.getLsbD 0 then Config.edcPolyReflected else 0#32)

/-- CRC_T[n] in the form of R117. -/
def crcEntryLsb (n : Byte) : Word := repeatN crcRoundLsb 8 (n.setWidth 32)

/-- The index `(acc ^ x) & 0xFF` of the update (R119). -/
def edcIndex (acc : Word) (x : Byte) : Byte := (acc ^^^ x.setWidth 32).setWidth 8

/-- One byte of the checksum, reading CRC_T: `CRC_T[(acc ^ x) & 0xFF] ^ (acc >> 8)` (R119). -/
def edcStep (s : State) (acc : Word) (x : Byte) : Eff Word := do
  let e ← readCrc s (edcIndex acc x).toNat
  pure (e ^^^ (acc >>> 8))

/-- `calc_edc(bytes)`, reading CRC_T, from a zero accumulator, with no final step (R119). -/
def calcEdc (s : State) (bytes : List Byte) : Eff Word := bytes.foldlM (edcStep s) 0#32

/-! ### The checksum as a pure function -/

/-- `edc_from(acc0, s)` of R123, with the table entries of R115 in place of a table. -/
def edcFrom (acc : Word) (bytes : List Byte) : Word :=
  bytes.foldl (fun acc x => crcEntry (edcIndex acc x) ^^^ (acc >>> 8)) acc

/-- `calc_edc(s)` of R119, with the table entries of R115 in place of a table. -/
def edcOf (bytes : List Byte) : Word := edcFrom 0#32 bytes

/-- The bit-serial form of R122. -/
def edcBitSerial (bytes : List Byte) : Word :=
  bytes.foldl (fun acc x => repeatN crcRoundLsb 8 (acc ^^^ x.setWidth 32)) 0#32

end Sys2Proof.Machine
end

