-- ==== Sys2Proof/Machine/Gf.lean ====
section
/-! DEFINITION. The Galois Field Engine and the parity-coefficient table builder (spec/40_gf_tables.md R91 to R100). -/

namespace Sys2Proof.Machine

/-! ### Log and antilog tables (R91) -/

/-- LOG and ILOG while they are being built: every cell holds a value. -/
structure GfTables where
  log : Vector Byte 256
  ilog : Vector Byte 256
  deriving DecidableEq, Repr

/-- "table entries default to 0" (R91, R94). -/
def GfTables.zero : GfTables where
  log := Vector.replicate 256 0#8
  ilog := Vector.replicate 256 0#8

/-- One field multiplication of the 9-bit working register `g` by the generator: shift left by 1, and if bit 8 is set,
XOR with GF_POLY (R91). -/
def gfAdvance (g : BitVec 9) : BitVec 9 :=
  let g' := g <<< 1
  if g'.getLsbD 8 then g' ^^^ Config.gfPoly else g'

/-- The loop of R91 from log value `v` on, `n` values left: `LOG[g] <- v; ILOG[v] <- g; advance g`. -/
def gfLoop : (n v : Nat) → BitVec 9 → GfTables → GfTables
  | 0, _, _, t => t
  | n + 1, v, g, t =>
    gfLoop n (v + 1) (gfAdvance g)
      { log := t.log.setIfInBounds g.toNat (BitVec.ofNat 8 v), ilog := t.ilog.setIfInBounds v (g.setWidth 8) }

/-- `build_gf()` (R91). -/
def buildGf : GfTables := gfLoop 255 0 1#9 GfTables.zero

/-- ILOG[i] of the tables being built. -/
def GfTables.ilogAt (t : GfTables) (i : Nat) : Byte := t.ilog[i]?.getD 0#8

/-- LOG[x] of the tables being built. -/
def GfTables.logAt (t : GfTables) (x : Byte) : Nat := (t.log[x.toNat]?.getD 0#8).toNat

/-! ### Field product and quotient (R92, R93) -/

/-- The product of two bytes as polynomials over GF(2), `n` bits of `b` left: up to 15 bits. -/
def polyMul : (n : Nat) → BitVec 15 → Byte → BitVec 15
  | 0, _, _ => 0#15
  | n + 1, a, b => (if b.getLsbD 0 then a else 0#15) ^^^ polyMul n (a <<< 1) (b >>> 1)

/-- Reduce modulo GF_POLY: clear bit `8 + k` with a shifted GF_POLY, for k = n-1 down to 0. -/
def polyReduce : (n : Nat) → BitVec 15 → BitVec 15
  | 0, p => p
  | k + 1, p => polyReduce k (if p.getLsbD (8 + k) then p ^^^ (Config.gfPoly.setWidth 15 <<< k) else p)

/-- `gf_mul(a, b)`: the product as polynomials over GF(2), reduced modulo GF_POLY (R92). -/
def gfMul (a b : Byte) : Byte := (polyReduce 7 (polyMul 8 (a.setWidth 15) b)).setWidth 8

/-- `gf_mul` in the equivalent form that uses the tables (R92). -/
def gfMulByLog (t : GfTables) (a b : Byte) : Byte :=
  if a = 0#8 ∨ b = 0#8 then 0#8 else t.ilogAt ((t.logAt a + t.logAt b) % 255)

/-- `gf_div(a, b)` (R93); `none` is the zero divisor, which raises INVARIANT (R104). -/
def gfDiv (t : GfTables) (a b : Byte) : Option Byte :=
  if b = 0#8 then none
  else if a = 0#8 then some 0#8
  else some (t.ilogAt ((t.logAt a + 255 - t.logAt b) % 255))

/-! ### The parity-coefficient table (R96 to R100) -/

/-- V1[j] = gf_div(0x01 ^ ILOG[44 − j], 0x03) for j = 0..44 (R97). -/
def vectorV1 (t : GfTables) : Option (List Byte) :=
  (List.range 45).mapM fun j => gfDiv t (0x01#8 ^^^ t.ilogAt (44 - j)) 0x03#8

/-- V0[j] = gf_div(0x01 ^ ILOG[(43 − j) mod 255], 0x8F) for j = 0..44 (R98). -/
def vectorV0 (t : GfTables) : Option (List Byte) :=
  (List.range 45).mapM fun j => gfDiv t (0x01#8 ^^^ t.ilogAt ((43 + 255 - j) % 255)) 0x8F#8

/-- One PQ_T entry: high byte the product with V1[r], low byte the product with V0[r] (R100). -/
def pqtEntry (c1 c0 v : Byte) : Half := gfMul v c1 ++ gfMul v c0

/-- `build_pqt()`: rows 0..42, columns 0..255 (R100). -/
def buildPqt (v1 v0 : List Byte) : Vector (Vector (Option Half) 256) 43 :=
  Vector.ofFn fun r => Vector.ofFn fun v =>
    some (pqtEntry (v1.getD r.val 0#8) (v0.getD r.val 0#8) (BitVec.ofNat 8 v.val))

end Sys2Proof.Machine
end

