-- ==== Sys2Proof/Machine/Tables.lean ====
section
/-! DEFINITION. The table build and its guard, and the command INIT (spec/40_gf_tables.md R90, R101 to R104). -/

namespace Sys2Proof.Machine

/-- `build_tables()` less its last line (R101): GF tables, coefficient vectors, PQ_T, CRC_T, in that order (D34). `none`
is the zero divisor of R104. -/
def buildTables : Option Tables := do
  let g := buildGf
  let v1 ← vectorV1 g
  let v0 ← vectorV0 g
  pure { log := g.log.map some, ilog := g.ilog.map some, pqt := buildPqt v1 v0, crc := buildCrc }

/-- `ensure_tables()` (R103): a table build happens only if TV = 0, and it sets TV in the same step (R31). -/
def ensureTables (s : State) : Eff State :=
  if s.tv then .ok s
  else
    match buildTables with
    | some t => .ok (setTables t s)
    | none => .error (.raised .invariant)

/-- INIT (R90). -/
def execInit (s : State) : Outcome := finish s (ensureTables s)

end Sys2Proof.Machine
end

