-- ==== Sys2Proof/Machine/Edc.lean ====
section
/-! DEFINITION. The commands EDC and EDCW (spec/41_edc.md R120, R121). -/

namespace Sys2Proof.Machine

/-- The effect of EDC (R120). -/
def edcEffect (off len : Nat) (s : State) : Eff State := do
  checkRange off len
  let s ← ensureTables s
  let bytes ← readRange s off len
  let e ← calcEdc s bytes
  pure (setEdcResult e s)

/-- EDC off, len (R120). -/
def execEdc (off len : Nat) (s : State) : Outcome := finish s (edcEffect off len s)

/-- The effect of EDCW (R121): the EDC of BUF[0..2063], little-endian at 2064 (R54), and in EDC_RESULT. -/
def edcwEffect (s : State) : Eff State := do
  let s ← ensureTables s
  let bytes ← readRange s 0 2064
  let e ← calcEdc s bytes
  pure (setEdcResult e (writeBuf s 2064 [wordByte e 0, wordByte e 1, wordByte e 2, wordByte e 3]))

/-- EDCW (R121). -/
def execEdcw (s : State) : Outcome := finish s (edcwEffect s)

end Sys2Proof.Machine
end

