-- ==== Sys2Proof/Machine/Parity.lean ====
section
/-! DEFINITION. The commands PPAR and QPAR (spec/42_parity.md R130 to R138). -/

namespace Sys2Proof.Machine

/-- One step of a column or diagonal pair: with table row `r`, take BUF[o] into `a` (the LSB stream) and BUF[o+1] into
`b` (the MSB stream). XOR keeps the two lanes apart (R131, R132). -/
def parityStep (s : State) (acc : Half × Half) (step : Nat × Nat) : Eff (Half × Half) := do
  let x ← readBuf s step.2
  let ea ← readPqt s step.1 x.toNat
  let y ← readBuf s (step.2 + 1)
  let eb ← readPqt s step.1 y.toNat
  pure (acc.1 ^^^ ea, acc.2 ^^^ eb)

/-- The accumulators of one pair, from zero (R131), along its (row, offset) steps. -/
def accumulate (s : State) (steps : List (Nat × Nat)) : Eff (Half × Half) :=
  steps.foldlM (parityStep s) (0#16, 0#16)

/-- The output bytes of pair `i`: high lanes at `base + 2i`, low lanes `half` bytes later (R134, R137). -/
def placeParity (base half i : Nat) (ab : Half × Half) (s : State) : State :=
  writeBuf (writeBuf s (base + 2 * i) [highLane ab.1, highLane ab.2]) (base + half + 2 * i) [lowLane ab.1, lowLane ab.2]

/-- One pair of a pass: accumulate, then write its four bytes. -/
def parityPair (steps : Nat → List (Nat × Nat)) (base half : Nat) (s : State) (i : Nat) : Eff State := do
  let ab ← accumulate s (steps i)
  pure (placeParity base half i ab s)

/-! ### P -/

/-- The P traversal of column pair `i`: step k uses row 19 + k at offset 12 + 2i + 86k (R133). -/
def pSteps (i : Nat) : List (Nat × Nat) := (List.range 24).map fun k => (19 + k, 12 + 2 * i + 86 * k)

/-- The effect of PPAR (R135). -/
def pparEffect (s : State) : Eff State := do
  let s ← ensureTables s
  (List.range 43).foldlM (parityPair pSteps 2076 86) s

/-- PPAR (R135). -/
def execPpar (s : State) : Outcome := finish s (pparEffect s)

/-! ### Q -/

/-- The step of the Q offset: forward by 88, and back by 2236 on reaching 2248 (R136). -/
def qAdvance (o : Nat) : Nat := if o + 88 ≥ 2248 then o + 88 - 2236 else o + 88

/-- The Q traversal from row `k` and offset `o`, `n` steps left (R136). -/
def qWalk : (n k o : Nat) → List (Nat × Nat)
  | 0, _, _ => []
  | n + 1, k, o => (k, o) :: qWalk n (k + 1) (qAdvance o)

/-- The Q traversal of diagonal pair `i`: 43 steps from offset 12 + 86i, step k with row k (R136). -/
def qSteps (i : Nat) : List (Nat × Nat) := qWalk 43 0 (12 + 86 * i)

/-- The effect of QPAR (R138). -/
def qparEffect (s : State) : Eff State := do
  let s ← ensureTables s
  (List.range 26).foldlM (parityPair qSteps 2248 52) s

/-- QPAR (R138). -/
def execQpar (s : State) : Outcome := finish s (qparEffect s)

end Sys2Proof.Machine
end

