-- ==== Sys2Proof/Machine/Sector.lean ====
section
/-! DEFINITION. The commands HDR and ENCODE (spec/43_sector.md R150 to R155). -/

namespace Sys2Proof.Machine

/-- `bcd(v)`: tens in the high nibble, ones in the low (R152). -/
def bcd (v : Nat) : Byte := BitVec.ofNat 4 (v / 10) ++ BitVec.ofNat 4 (v % 10)

/-- Minute, second and frame of an LBA: F = LBA + 150 on integers, F / 4500, (F / 75) mod 60, F mod 75 (R150). -/
def timecode (lba : Nat) : Nat × Nat × Nat :=
  let f := lba + 150
  (f / 4500, f / 75 % 60, f % 75)

/-- The header: timecode in BCD, then the mode byte (R24, R154). -/
def headerBytes (lba : Nat) : List Byte :=
  let (m, sec, f) := timecode lba
  [bcd m, bcd sec, bcd f, Config.modeByte]

/-- What HDR writes: sync and header at 0..15, zeros at 2064..2351 (R154). -/
def writeHeader (lba : Nat) (s : State) : State :=
  writeBuf (writeBuf s 0 (Config.sync ++ headerBytes lba)) 2064 (List.replicate 288 0#8)

/-- The effect of HDR (R154). It uses no table and does not run the table build (R103). -/
def hdrEffect (s : State) : Eff State := do
  let l ← readLba s
  checkLba l
  pure (writeHeader l.toNat s)

/-- HDR (R154). -/
def execHdr (s : State) : Outcome := finish s (hdrEffect s)

/-- The effect of ENCODE (R155): the checks in the order of R179, the table build, then HDR, EDCW, PPAR and QPAR. -/
def encodeEffect (s : State) : Eff State := do
  let n ← readDlen s
  checkLength n
  let l ← readLba s
  checkLba l
  let s ← ensureTables s
  let s ← hdrEffect s
  let s ← edcwEffect s
  let s ← pparEffect s
  qparEffect s

/-- ENCODE (R155). -/
def execEncode (s : State) : Outcome := finish s (encodeEffect s)

end Sys2Proof.Machine
end

