-- ==== Sys2Proof/Machine/Dispatch.lean ====
section
/-! DEFINITION. One arm per command (spec/30_encoding.md R73): the completion step of a decoded command
(spec/10_state.md R42). -/

namespace Sys2Proof.Machine

def exec (i : Instr) (s : State) : Host.Outcome State Fault Refusal :=
  match i with
  | .init => Sys2Proof.Machine.execInit s
  | .edc off len => Sys2Proof.Machine.execEdc off len s
  | .edcw => Sys2Proof.Machine.execEdcw s
  | .ppar => Sys2Proof.Machine.execPpar s
  | .qpar => Sys2Proof.Machine.execQpar s
  | .hdr => Sys2Proof.Machine.execHdr s
  | .encode => Sys2Proof.Machine.execEncode s

end Sys2Proof.Machine
end

