-- ==== Sys2Proof/Machine/HostBus.lean ====
section
/-! DEFINITION. The host's bus accesses (spec/20_memory.md R50 to R59) and the host's statements
(spec/30_encoding.md R79, R80; spec/70_reset_and_hazards.md R190, R191). -/

namespace Sys2Proof.Machine

/-! ### The address map (R51) -/

/-- The regions of R51. -/
inductive Region where
  | buf | cmd | status | lba | dlen | edcResult | log | ilog | crc | pqt | unmapped
  deriving DecidableEq, Repr

/-- The address map of R51: first offset, last offset, region. Every offset in no row is unmapped. -/
def addressMap : List (Nat × Nat × Region) :=
  [(0x0000, 0x092F, .buf),
   (0x1000, 0x1003, .cmd),
   (0x1004, 0x1007, .status),
   (0x1008, 0x100B, .lba),
   (0x100C, 0x100F, .dlen),
   (0x1010, 0x1013, .edcResult),
   (0x2000, 0x20FF, .log),
   (0x2100, 0x21FF, .ilog),
   (0x2400, 0x27FF, .crc),
   (0x4000, 0x95FF, .pqt)]

/-- The region of the first row that holds `n`. -/
def lookupRegion (n : Nat) : List (Nat × Nat × Region) → Region
  | [] => .unmapped
  | (lo, hi, r) :: rows => if lo ≤ n ∧ n ≤ hi then r else lookupRegion n rows

/-- The region of a block offset, as a number (R51). -/
def regionAt (n : Nat) : Region := lookupRegion n addressMap

/-- The region of a block offset (R51). -/
def regionOf (a : Offset) : Region := regionAt a.toNat

/-- The regions a host may read (R51): all but CMD and the unmapped offsets. -/
def Region.readable : Region → Bool
  | .cmd | .unmapped => false
  | .buf | .status | .lba | .dlen | .edcResult | .log | .ilog | .crc | .pqt => true

/-- The regions a host may write (R51). -/
def Region.writable : Region → Bool
  | .buf | .cmd | .lba | .dlen => true
  | .status | .edcResult | .log | .ilog | .crc | .pqt | .unmapped => false

/-- The widths a region lists (R51): registers only 4, the others 1, 2 and 4. -/
def Region.widthOk (r : Region) (n : Nat) : Bool :=
  match r with
  | .cmd | .status | .lba | .dlen | .edcResult => n == 4
  | .buf | .log | .ilog | .crc | .pqt => n == 1 || n == 2 || n == 4
  | .unmapped => false

/-- Natural alignment (R58). -/
def aligned (a : Offset) (n : Nat) : Bool := a.toNat % n == 0

/-- A read that meets the first three conditions of R52. -/
def readPermitted (a : Offset) (n : Nat) : Bool :=
  (regionOf a).readable && (regionOf a).widthOk n && aligned a n

/-- A write that meets the first three conditions of R52. -/
def writePermitted (a : Offset) (n : Nat) : Bool :=
  (regionOf a).writable && (regionOf a).widthOk n && aligned a n

/-- The registers a host may read while a command is in flight (R52, R196). -/
def readableWhileBusy (a : Offset) : Bool := a == 0x1004#16 || a == 0x1008#16 || a == 0x100C#16

/-- The host address of a block offset: BLOCK_BASE + a (R50). -/
def hostAddress (a : Offset) : Nat := Config.blockBase + a.toNat

/-- The block offset of a host address, if it lies in the block's 65536-byte window (R50). -/
def blockOffset (addr : Nat) : Option Offset :=
  if Config.blockBase ≤ addr ∧ addr < Config.blockBase + 65536 then some (BitVec.ofNat 16 (addr - Config.blockBase))
  else none

/-! ### Reads (R56) -/

/-- `cell()` of R56: the byte a block offset names, or no value. Multi-byte entries are little-endian (R53, R55). -/
def State.cell (s : State) (a : Nat) : Option Byte :=
  match regionAt a with
  | .buf => s.buf.read a
  | .status => some (wordByte s.statusWord (a - 0x1004))
  | .lba => s.lba.map fun w => wordByte w (a - 0x1008)
  | .dlen => s.dlen.map fun w => wordByte w (a - 0x100C)
  | .edcResult => s.edcResult.map fun w => wordByte w (a - 0x1010)
  | .log => s.tables.log[a - 0x2000]?.join
  | .ilog => s.tables.ilog[a - 0x2100]?.join
  | .crc => (s.tables.crcAt ((a - 0x2400) / 4)).map fun w => wordByte w ((a - 0x2400) % 4)
  | .pqt => (s.tables.pqtAt ((a - 0x4000) / 512) ((a - 0x4000) % 512 / 2)).map fun h => halfByte h ((a - 0x4000) % 2)
  | .cmd | .unmapped => none

/-- The bytes of an access, lowest offset first, if every one of them holds a value. -/
def State.cells (s : State) (a : Offset) (n : Nat) : Option (List Byte) :=
  (List.range n).mapM fun t => s.cell (a.toNat + t)

/-- `MemRead(a, n)`: the three stops and their order are those of R56's pseudocode, the last one "if any byte has no value:
fault UnwrittenRead(a)". It changes nothing (R60). -/
def memRead (s : State) (a : Offset) (n : Nat) : Except Fault Word :=
  if readPermitted a n = false then .error (.hostAccessFault a n)
  else if s.busy && !readableWhileBusy a then .error (.hostHazard a)
  else
    match s.cells a n with
    | some bytes => .ok (assembleBytes bytes)
    | none => .error (.unwrittenRead (.bus a))

/-! ### Writes (R57) -/

/-- A CMD write while BUSY = 0 (R32): refused under FATAL, else accepted. Acceptance also loads `stall` with the free
number of host steps before completion (R42; log entry 3). -/
def accept (w : Word) (s : State) : State :=
  if s.fatal then refuseUnderFatal s
  else { latch w s with accepted := s.accepted + 1, stall := Config.latency s.accepted }

/-- `MemWrite(a, n, v)` (R57). Only the low n bytes of v are used. -/
def memWrite (s : State) (a : Offset) (n : Nat) (v : Word) : Except Fault State :=
  if writePermitted a n = false then .error (.hostAccessFault a n)
  else if s.busy then .error (.hostHazard a)
  else
    match regionOf a with
    | .cmd => .ok (accept v s)
    | .lba => .ok { s with lba := some v }
    | .dlen => .ok { s with dlen := some v }
    | _ => .ok (writeBuf s a.toNat ((List.range n).map fun t => wordByte v t))

/-! ### Host statements -/

/-- The block after its reset input (R45, R190, R191). What the host has still to do and has seen is not the block's
state and stays. -/
def resetBlock (s : State) : State :=
  { State.reset with host := s.host, reads := s.reads, checkFailed := s.checkFailed, accepted := s.accepted }

/-- One host step passes: one less before the command in flight completes (R42; log entry 3). -/
def tick (s : State) : State := { s with stall := s.stall - 1 }

/-- The offset of STATUS (R33). -/
def statusOffset : Offset := 0x1004#16

/-- The offset of CMD (R32). -/
def cmdOffset : Offset := 0x1000#16

/-- Execute the host statement `st`, already taken off the list. -/
def runStmt (st : HostStmt) (s : State) : Outcome :=
  match st with
  | .read a n =>
    match memRead s a n with
    | .ok v => .next { s with reads := s.reads ++ [v] }
    | .error f => .fault f
  | .write a n v =>
    match memWrite s a n v with
    | .ok s' => .next s'
    | .error f => .fault f
  | .wait =>
    match memRead s statusOffset 4 with
    | .ok v => .next (if v.getLsbD 0 then { s with host := .wait :: s.host } else s)
    | .error f => .fault f
  | .check =>
    match memRead s statusOffset 4 with
    | .ok v => .next { s with reads := s.reads ++ [v], checkFailed := s.checkFailed || v.extractLsb' 8 4 != 0#4 }
    | .error f => .fault f
  | .reset => .next (resetBlock s)

/-- One step of the host: its next statement. With no statement left the block idles (log entry 9). -/
def hostStep (s : State) : Outcome :=
  match s.host with
  | [] => .next s
  | st :: rest => runStmt st (tick { s with host := rest })

end Sys2Proof.Machine
end

