-- ==== Sys2Proof/Machine/Engine.lean ====
section
/-! DEFINITION. The engine's completion step (spec/10_state.md R42), which agent moves next (spec/20_memory.md R62), and how
a model fault is recorded and ends the run (spec/60_exceptions.md R177; spec/30_encoding.md R82). -/

namespace Sys2Proof.Machine

/-- `step_engine()` (R42): execute the command word in PEND. An ILLEGAL word completes with ILLEGAL_CMD and writes
nothing (R74, R75, R173). A BUSY engine whose PEND is empty occurs in no run; its step would read a
register that holds no value, which R26 makes `UnwrittenRead` (log entry 8). -/
def engineStep (s : State) : Outcome :=
  match s.pend with
  | none => .fault (.unwrittenRead .pend)
  | some w =>
    match decodeBytes (wordBytes w) with
    | .command i => exec i s
    | .illegal _ => .next (raiseErr .illegalCmd s)

/-- The engine moves when it has a command in flight (R42) and either its host steps have passed or the host has no
statement left (R82; log entries 3 and 4). -/
def engineTurn (s : State) : Bool := s.busy && (s.stall == 0 || s.host.isEmpty)

/-- One event of the interleaving (R62): the engine's completion step at its turn, else the host's next statement. -/
def event (s : State) : Outcome := if engineTurn s then engineStep s else hostStep s

/-! ### Model faults -/

/-- Whether a model fault ends the run (R82, R177). After Invariant the block still has behaviour: it refuses every
command until reset (R178). -/
def Fault.endsRun : Fault → Bool
  | .unwrittenRead _ | .hostAccessFault _ _ | .hostHazard _ => true
  | .invariant => false

/-- The recorded fault that ended the run, if one did. -/
def State.endedBy (s : State) : Option Fault := s.faults.find? Fault.endsRun

/-- An event in `s` that meets a model fault leaves `s` with that fault recorded, and none of the event's effects (R26,
R177; log entry 6). -/
def recordOutcome (s : State) : Outcome → Outcome
  | .next t => .next t
  | .fault f => .next (recordFault f s)
  | .refused r => .refused r

/-- The next event of the run, its model fault recorded. A run that a fault has ended has no further event: it answers
that fault for good (R82, R177). -/
def stepRun (s : State) : Outcome :=
  match s.endedBy with
  | some f => .fault f
  | none => recordOutcome s (event s)

/-! ### Placing a command -/

/-- `s` with the command word `w` accepted and the engine to move next: nothing else changes (log entry 5). -/
def placeCommand (w : Word) (s : State) : State := { latch w s with stall := 0 }

end Sys2Proof.Machine
end

