-- ==== Sys2Proof/Machine/Step.lean ====
section
/-! DEFINITION. One step of the whole machine: one event of the interleaving of spec/20_memory.md R62. -/

namespace Sys2Proof.Machine

/-- The engine's completion step if it is the engine's turn, else the host's next statement (R62), with a model fault
recorded (R177); the fault itself once one has ended the run. -/
def step (s : State) : Host.Outcome State Fault Refusal := stepRun s

/-- `s` with the table row's word in PEND, accepted, so that the very next step runs it: PEND is where the engine takes
its command word from (R42, R66; log entry 5). -/
def State.withFetchWord (s : State) (nbits w : Nat) : State :=
  placeCommand (BitVec.ofNat 32 (w % 2 ^ nbits)) s

end Sys2Proof.Machine
end

