-- ==== Sys2Proof/Machine/Assembler.lean ====
section
/-! DEFINITION. The expansions of the assembly statements into host statements (spec/30_encoding.md R79, R80), and a
program's start state (R82). -/

namespace Sys2Proof.Machine

/-- `wr32 CMD, w` (R80). -/
def writeCmd (w : Word) : HostStmt := .write cmdOffset 4 w

/-- Consecutive byte writes from `a` on (R79 `load`). -/
def byteWrites : Nat → List Byte → List HostStmt
  | _, [] => []
  | a, b :: bs => .write (BitVec.ofNat 16 a) 1 (b.setWidth 32) :: byteWrites (a + 1) bs

/-- The expansion of one assembly statement (R79, R80). -/
def expand : AsmStmt → List HostStmt
  | .wr32 a v => [.write a 4 v]
  | .wr16 a v => [.write a 2 (v.setWidth 32)]
  | .wr8 a v => [.write a 1 (v.setWidth 32)]
  | .rd32 a => [.read a 4]
  | .rd16 a => [.read a 2]
  | .rd8 a => [.read a 1]
  | .fill a n b => byteWrites a.toNat (List.replicate n b)
  | .load a bytes => byteWrites a.toNat bytes
  | .wait => [.wait]
  | .command i => [writeCmd (encode i), .wait]
  | .edcs => [writeCmd (encode (.edc 0 2064)), .wait]
  | .issue w => [writeCmd w]
  | .check => [.check]
  | .reset => [.reset]

/-- The host statements of an assembly program. -/
def assemble (prog : List AsmStmt) : List HostStmt := prog.flatMap expand

/-- The start state of a program run from reset, with no host access made yet (R82). -/
def startState (prog : List AsmStmt) : State := { State.reset with host := assemble prog }

end Sys2Proof.Machine
end

