-- ==== Sys2Proof/Safety.lean ====
section
/-! DEFINITION. What a normal end is (spec/70_reset_and_hazards.md R201), the invariant of the block, and the terms the
claims about it are written in. -/

namespace Sys2Proof.Machine

/-- A run has ended normally (R82, R201): no statement left, no command in flight, no fault recorded. -/
abbrev NormalEnd (s : State) : Prop := s.host = [] ∧ s.busy = false ∧ s.faults = []

/-! ### The invariant -/

/-- TV is exactly the guard of a complete build: while it is 1 the tables hold what the build gives, while it is 0 no
table cell holds a value (R30, R31). -/
abbrev TablesOk (s : State) : Prop :=
  if s.tv then buildTables = some s.tables else s.tables = Tables.unwritten

/-- What every run keeps: BUF canonical (R23), TV guarding the tables (R30, R31), PEND holding a word exactly while
BUSY = 1 (R42), BUSY and DONE never together (R33), and FATAL only with BUSY = 0 and TV = 0 (R32, R178). -/
structure State.Inv (s : State) : Prop where
  buf : s.buf.wf
  tables : TablesOk s
  pend : s.pend.isSome = s.busy
  busyDone : ¬ (s.busy = true ∧ s.done = true)
  fatal : s.fatal = true → s.busy = false ∧ s.tv = false

/-! ### Terms of claims -/

/-- The tables hold what the build gives, and TV says so. -/
abbrev TablesBuilt (s : State) : Prop := s.tv = true ∧ buildTables = some s.tables

/-- BUF[lo..hi], both ends included, holds the bytes `d`. -/
abbrev Holds (s : State) (lo hi : Nat) (d : Nat → Byte) : Prop :=
  ∀ a, lo ≤ a → a ≤ hi → s.buf.read a = some (d a)

/-- Every BUF cell outside [lo..hi] reads in `t` as in `s`. -/
abbrev BufSameOutside (s t : State) (lo hi : Nat) : Prop :=
  ∀ a, a < lo ∨ hi < a → t.buf.read a = s.buf.read a

/-- `t` is `s` after the completion of a command: STATUS and PEND have had the completion update with outcome NONE
(R42), and of the rest only BUF, the tables, TV and EDC_RESULT may differ (R42, R68). -/
abbrev CompletedFrom (s t : State) : Prop :=
  t = complete .none { s with buf := t.buf, tables := t.tables, tv := t.tv, edcResult := t.edcResult }

/-- No model fault has ended the run: the premise R177 gives every claim about what the block does. -/
abbrev Running (s : State) : Prop := s.endedBy = none

/-- In a running machine it is the host's turn and its next statement is `st`, with `rest` after it. -/
abbrev HostNext (s : State) (st : HostStmt) (rest : List HostStmt) : Prop :=
  Running s ∧ engineTurn s = false ∧ s.host = st :: rest

/-- In a running machine it is the engine's turn and PEND holds the word `w`. -/
abbrev EngineNext (s : State) (w : Word) : Prop := Running s ∧ engineTurn s = true ∧ s.pend = some w

/-- The step from `s` meets the model fault `f`: it records it (R177). -/
abbrev MeetsFault (s : State) (f : Fault) : Prop := ∃ t, step s = .next t ∧ t.faults = s.faults ++ [f]

/-- `s` after the host took its next statement off its list and one host step passed: what every host statement starts
from. -/
def taken (s : State) (rest : List HostStmt) : State := tick { s with host := rest }

/-- The BUF cells a command's completion step writes (R68). -/
def writesCell : Instr → Nat → Bool
  | .init, _ | .edc _ _, _ => false
  | .edcw, a => decide (2064 ≤ a ∧ a ≤ 2067)
  | .ppar, a => decide (2076 ≤ a ∧ a ≤ 2247)
  | .qpar, a => decide (2248 ≤ a ∧ a ≤ 2351)
  | .hdr, a | .encode, a => decide (a ≤ 15 ∨ (2064 ≤ a ∧ a ≤ 2351))

/-- The GF(256) sum of `f 0 .. f (n-1)`. -/
def xorSum : Nat → (Nat → Byte) → Byte
  | 0, _ => 0#8
  | n + 1, f => xorSum n f ^^^ f n

/-- V1[j] (R97). -/
def v1At (j : Nat) : Byte := ((vectorV1 buildGf).getD []).getD j 0#8

/-- V0[j] (R98). -/
def v0At (j : Nat) : Byte := ((vectorV0 buildGf).getD []).getD j 0#8

/-- α^i, α the generator 0x02 (R9). -/
def alphaPow (i : Nat) : Byte := repeatN (gfMul 0x02#8) i 0x01#8

/-- The bytes of BUF[lo .. lo+n-1] as a sequence, given what the cells hold. -/
def bytesFrom (d : Nat → Byte) (lo n : Nat) : List Byte := (List.range n).map fun t => d (lo + t)

/-- The offset of step k of the Q diagonal pair i, as R136's closed form gives it. -/
def qOffset (i k : Nat) : Nat := 12 + (86 * i + 88 * k) % 2236

/-- Check symbol of P column m (0..85) with coefficient vector `c`, from the data the column reads (R130, R133). -/
def pSymbol (c : Nat → Byte) (d : Nat → Byte) (m : Nat) : Byte :=
  xorSum 24 fun k => gfMul (d (12 + m + 86 * k)) (c (19 + k))

/-- Check symbol of Q diagonal m = 2i + h (0..51) with coefficient vector `c`, from the data the diagonal reads
(R130, R136). -/
def qSymbol (c : Nat → Byte) (d : Nat → Byte) (m : Nat) : Byte :=
  xorSum 43 fun k => gfMul (d (qOffset (m / 2) k + m % 2)) (c k)

end Sys2Proof.Machine
end

