-- ==== Sys2Proof/Certificates/Slice0/Obligations.lean ====
section
/-! DEFINITION. The statements for the provers. Each docstring names the rules of spec/ it formalises. -/

open Sys2Proof Sys2Proof.Machine

/-! ### Encoding (spec/30_encoding.md) -/

/-- R71 to R73, R77: every well-formed command survives encoding and decoding, as a word and as four bus bytes. -/
def Obligations.DecodeEncodeRoundTrip : Prop :=
  ∀ i : Instr, i.wellFormed = true →
    decode (encode i) = .command i ∧ decodeBytes (wordBytes (encode i)) = .command i

/-- R71 to R73, R77: a word that decodes to a command is that command's encoding; the decoder drops no bit. -/
def Obligations.DecodedCommandReencodes : Prop :=
  ∀ (w : Word) (i : Instr), decode w = .command i → i.wellFormed = true ∧ encode i = w

/-- R73: the match and mask pairs of the opcode map select the commands, and R72 gives EDC's operands. -/
def Obligations.MatchMaskSelectsCommand : Prop :=
  ∀ w : Word,
    (decode w = .command .init ↔ w &&& 0xFFFFFFFF#32 = 0x00000001#32) ∧
    (∀ off len : Nat, decode w = .command (.edc off len) ↔
      w &&& 0x000000FF#32 = 0x00000002#32 ∧ off = w.toNat / 2 ^ 8 % 2 ^ 12 ∧ len = w.toNat / 2 ^ 20) ∧
    (decode w = .command .edcw ↔ w &&& 0xFFFFFFFF#32 = 0x00000003#32) ∧
    (decode w = .command .ppar ↔ w &&& 0xFFFFFFFF#32 = 0x00000004#32) ∧
    (decode w = .command .qpar ↔ w &&& 0xFFFFFFFF#32 = 0x00000005#32) ∧
    (decode w = .command .hdr ↔ w &&& 0xFFFFFFFF#32 = 0x00000006#32) ∧
    (decode w = .command .encode ↔ w &&& 0xFFFFFFFF#32 = 0x00000007#32)

/-- R74, R75: exactly the words with an unassigned OP, or with an assigned OP other than EDC and a bit of [31:8] set,
are ILLEGAL. -/
def Obligations.IllegalWordsExactly : Prop :=
  ∀ w : Word, (∃ why, decode w = .illegal why) ↔
    (w.toNat % 256 = 0 ∨ 8 ≤ w.toNat % 256) ∨ (w.toNat % 256 ≠ 2 ∧ w.toNat / 256 ≠ 0)

/-- Words written out from R73, R80 and spec/95_test_vectors.md decode to what they stand for. -/
def Obligations.SampleWordsDecode : Prop :=
  decode 0x00000001#32 = .command .init ∧ decode 0x00900002#32 = .command (.edc 0 9) ∧
  decode 0x81000002#32 = .command (.edc 0 2064) ∧ decode 0x930FFF02#32 = .command (.edc 4095 2352) ∧
  decode 0x00000003#32 = .command .edcw ∧ decode 0x00000004#32 = .command .ppar ∧
  decode 0x00000005#32 = .command .qpar ∧ decode 0x00000006#32 = .command .hdr ∧
  decode 0x00000007#32 = .command .encode

/-! ### One step -/

/-- R42, R62, R177: while no model fault has ended the run, a step at the engine's turn, with a word in PEND that decodes to
`i`, is the meaning of `i`; at the host's turn it is the host's next statement, in the state with that statement taken; a
model fault either of them meets is recorded instead; with nothing to do the block idles (log entry 9). -/
def Obligations.StepRunsDecodedCommand : Prop :=
  (∀ (s : State) (w : Word) (i : Instr), EngineNext s w → decode w = .command i →
    step s = match exec i s with
      | .next t => .next t
      | .fault f => .next { s with faults := s.faults ++ [f] }
      | .refused r => .refused r) ∧
  (∀ (s : State) (st : HostStmt) (rest : List HostStmt), HostNext s st rest →
    step s = match runStmt st (taken s rest) with
      | .next t => .next t
      | .fault f => .next { s with faults := s.faults ++ [f] }
      | .refused r => .refused r) ∧
  (∀ s : State, Running s → engineTurn s = false → s.host = [] → step s = .next s)

/-- R74, R75, R173: a word with an unassigned OP, or with an assigned OP other than EDC and a bit of [31:8] set, is accepted
like any other; its completion step ends with ERR = 0x2, ILLEGAL_CMD, writes nothing, and keeps no word. -/
def Obligations.IllegalWordWritesNothing : Prop :=
  Err.illegalCmd.code = 0x2#4 ∧
  ∀ (s : State) (w : Word),
    (w.toNat % 256 = 0 ∨ 8 ≤ w.toNat % 256) ∨ (w.toNat % 256 ≠ 2 ∧ w.toNat / 256 ≠ 0) →
    (∀ rest, HostNext s (.write 0x1000#16 4 w) rest → s.busy = false → s.fatal = false →
      ∃ u, step s = .next u ∧ u.pend = some w ∧ u.busy = true ∧ u.err = .none) ∧
    (EngineNext s w → step s = .next (complete .illegalCmd s))

/-- R42, R197: a `wait` on a command in flight passes every host step that precedes the completion, and then the engine
moves: it waits `stall` steps, whatever that number is. -/
def Obligations.WaitReachesCompletion : Prop :=
  ∀ (s : State) (rest : List HostStmt), Running s → s.busy = true → s.host = .wait :: rest →
    Host.Core.run Sys2Proof.core s.stall s = .next { s with stall := 0 } ∧ engineTurn { s with stall := 0 } = true

/-! ### Invariants -/

/-- R23, R30, R31, R33, R42: what the model's invariant says is kept by every step. -/
def Obligations.StepKeepsBlockConsistent : Prop :=
  ∀ s t : State, s.Inv → step s = .next t → t.Inv

/-- The invariant holds after reset. -/
def Obligations.ResetIsConsistent : Prop := State.reset.Inv

/-- R45: the state after reset. -/
def Obligations.ResetState : Prop :=
  (∀ a, State.reset.buf.read a = none) ∧
  (∀ n < 256, State.reset.tables.log[n]? = some none ∧ State.reset.tables.ilog[n]? = some none ∧
    State.reset.tables.crcAt n = none) ∧
  (∀ r < 43, ∀ v < 256, State.reset.tables.pqtAt r v = none) ∧
  State.reset.tv = false ∧ State.reset.statusWord = 0#32 ∧
  State.reset.lba = none ∧ State.reset.dlen = none ∧ State.reset.edcResult = none ∧
  State.reset.pend = none ∧ State.reset.faults = []

/-- R31, R102: from TV = 1, whatever the step, TV stays 1 and the tables keep their values, unless the step is reset. -/
def Obligations.TablesStayUntilReset : Prop :=
  ∀ s t : State, s.tv = true → step s = .next t →
    (t.tv = true ∧ t.tables = s.tables) ∨ ∃ rest, HostNext s .reset rest

/-- R37, R104: the division check cannot fail, so no step sets FATAL, records Invariant, or gives ERR = 0xF. -/
def Obligations.FatalStaysClear : Prop :=
  buildTables ≠ none ∧
  ∀ s t : State, s.fatal = false → Fault.invariant ∉ s.faults → s.err ≠ .invariant → step s = .next t →
    t.fatal = false ∧ Fault.invariant ∉ t.faults ∧ t.err ≠ .invariant

/-- R34, R35: whatever step is taken that meets no model fault (the premise of R177), the completion step clears BUSY and sets DONE; a CMD write while idle sets BUSY and
clears DONE, or under FATAL sets DONE alone; reset clears both; no other step changes either, a read of STATUS included. -/
def Obligations.BusyAndDoneChangeOnlyHere : Prop :=
  ∀ s t : State, step s = .next t → Running t →
    (engineTurn s = true → t.busy = false ∧ t.done = true) ∧
    (∀ w rest, HostNext s (.write 0x1000#16 4 w) rest → s.busy = false ∧
      (s.fatal = false → t.busy = true ∧ t.done = false) ∧ (s.fatal = true → t.busy = false ∧ t.done = true)) ∧
    (∀ rest, HostNext s .reset rest → t.busy = false ∧ t.done = false) ∧
    (engineTurn s = false → (∀ n w rest, ¬ HostNext s (.write 0x1000#16 n w) rest) → (∀ rest, ¬ HostNext s .reset rest) →
      t.busy = s.busy ∧ t.done = s.done)

/-! ### Every command -/

/-- R25, R68: the frame of every command. A completion step that goes on leaves every BUF cell outside the command's write
set, the registers LBA and DLEN, FATAL, the fault record and the host's side as they were; EDC_RESULT except for EDC, EDCW
and ENCODE; the tables and TV if TV was 1, and for HDR always. STATUS and PEND get the completion update. -/
def Obligations.CommandWritesOnlyItsCells : Prop :=
  ∀ (i : Instr) (s t : State), exec i s = .next t →
    (∀ a, writesCell i a = false → t.buf.read a = s.buf.read a) ∧
    t = { s with buf := t.buf, tables := t.tables, tv := t.tv, edcResult := t.edcResult,
                 err := t.err, done := true, busy := false, pend := none } ∧
    (s.tv = true ∨ i = .hdr → t.tv = s.tv ∧ t.tables = s.tables) ∧
    (i = .init ∨ i = .ppar ∨ i = .qpar ∨ i = .hdr → t.edcResult = s.edcResult)

/-- R176: a command that ends with an error has no effect except on STATUS and PEND: ERR gets the code, DONE is 1, BUSY 0,
PEND empty. So too for the completion step of any word, ILLEGAL ones included, that meets no model fault. -/
def Obligations.ErrorHasNoEffect : Prop :=
  (∀ (i : Instr) (s t : State), exec i s = .next t → t.err ≠ .none →
    t = { s with err := t.err, done := true, busy := false, pend := none }) ∧
  (∀ s t : State, engineTurn s = true → step s = .next t → Running t → t.err ≠ .none →
    t = { s with err := t.err, done := true, busy := false, pend := none })

/-- R26, R120, R121, R135, R138, R154, R155: a command whose input cell or register holds no value is the fault
UnwrittenRead of a cell it reads; for EDC, EDCW and ENCODE the first one in increasing order of offset. -/
def Obligations.UnwrittenInputFaults : Prop :=
  ∀ s : State, TablesOk s →
    (∀ off len k, off + len ≤ 2352 → k < len → s.buf.read (off + k) = none → (∀ j < k, (s.buf.read (off + j)).isSome) →
      exec (.edc off len) s = .fault (.unwrittenRead (.buf (off + k)))) ∧
    (∀ k < 2064, s.buf.read k = none → (∀ j < k, (s.buf.read j).isSome) →
      exec .edcw s = .fault (.unwrittenRead (.buf k))) ∧
    ((∃ a, 12 ≤ a ∧ a ≤ 2075 ∧ s.buf.read a = none) →
      ∃ a, 12 ≤ a ∧ a ≤ 2075 ∧ s.buf.read a = none ∧ exec .ppar s = .fault (.unwrittenRead (.buf a))) ∧
    ((∃ a, 12 ≤ a ∧ a ≤ 2247 ∧ s.buf.read a = none) →
      ∃ a, 12 ≤ a ∧ a ≤ 2247 ∧ s.buf.read a = none ∧ exec .qpar s = .fault (.unwrittenRead (.buf a))) ∧
    (s.lba = none → exec .hdr s = .fault (.unwrittenRead .lba)) ∧
    (s.dlen = none → exec .encode s = .fault (.unwrittenRead .dlen)) ∧
    (s.dlen = some 2048#32 → s.lba = none → exec .encode s = .fault (.unwrittenRead .lba)) ∧
    (∀ l k, s.dlen = some 2048#32 → s.lba = some l → l.toNat ≤ 449849 → k < 2048 → s.buf.read (16 + k) = none →
      (∀ j < k, (s.buf.read (16 + j)).isSome) → exec .encode s = .fault (.unwrittenRead (.buf (16 + k))))

/-- R103: a host that never issues INIT gets the same results as one that does, for every command that uses a table. -/
def Obligations.InitIsOptional : Prop :=
  ∀ (i : Instr) (s u t : State), i ≠ .hdr → TablesOk s → exec .init s = .next u → exec i s = .next t → t.err = .none →
    exec i u = .next t

/-! ### INIT and the tables (spec/40_gf_tables.md) -/

/-- R90, R101, R102, R100, R115: INIT completes in every state whose TV guards its tables. Afterwards TV = 1, every PQ_T
entry holds its two products and every CRC_T entry its value; BUF and EDC_RESULT are unchanged, and the tables too if TV
was 1. -/
def Obligations.InitBuildsTables : Prop :=
  ∀ s : State, TablesOk s → ∃ t, exec .init s = .next t ∧ TablesBuilt t ∧
    (∀ r < 43, ∀ v : Byte, ∃ h, t.tables.pqtAt r v.toNat = some h ∧ highLane h = gfMul v (v1At r) ∧
      lowLane h = gfMul v (v0At r)) ∧
    (∀ n : Byte, t.tables.crcAt n.toNat = some (crcEntry n)) ∧
    t.buf = s.buf ∧ t.edcResult = s.edcResult ∧ (s.tv = true → t.tables = s.tables) ∧ CompletedFrom s t

/-- R94, R95: after the build LOG and ILOG are inverse to each other, and their named cells hold what the rule lists. -/
def Obligations.LogTablesAreInverse : Prop :=
  ∀ t : Tables, buildTables = some t →
    (∀ x : Byte, x ≠ 0#8 → ∃ l : Byte, t.log[x.toNat]? = some (some l) ∧ t.ilog[l.toNat]? = some (some x)) ∧
    (∀ i : Byte, i ≠ 0xFF#8 → ∃ x : Byte, t.ilog[i.toNat]? = some (some x) ∧ t.log[x.toNat]? = some (some i)) ∧
    t.ilog[0]? = some (some 0x01#8) ∧ t.ilog[1]? = some (some 0x02#8) ∧ t.ilog[8]? = some (some 0x1D#8) ∧
    t.ilog[25]? = some (some 0x03#8) ∧ t.ilog[254]? = some (some 0x8E#8) ∧
    t.log[0x01]? = some (some 0#8) ∧ t.log[0x02]? = some (some 1#8) ∧ t.log[0x03]? = some (some 25#8) ∧
    t.log[0x8E]? = some (some 254#8) ∧ t.log[0x8F]? = some (some 24#8) ∧
    t.log[0]? = some (some 0#8) ∧ t.ilog[255]? = some (some 0#8)

/-- R92: the polynomial product and the log/antilog form agree on all pairs; gf_mul is commutative and 1 is its unit. -/
def Obligations.FieldProductTwoForms : Prop :=
  ∀ a b : Byte, gfMul a b = gfMulByLog buildGf a b ∧ gfMul a b = gfMul b a ∧ gfMul a 0x01#8 = a

/-- R9, R132, R142: the field product distributes over the field sum. -/
def Obligations.FieldProductDistributes : Prop :=
  ∀ a b c : Byte, gfMul (a ^^^ b) c = gfMul a c ^^^ gfMul b c

/-- R93, R104: gf_div undoes gf_mul for a nonzero divisor; a zero divisor is the INVARIANT case; 0 divided is 0. -/
def Obligations.FieldQuotientUndoesProduct : Prop :=
  ∀ a b : Byte, (b ≠ 0#8 → gfDiv buildGf (gfMul a b) b = some a ∧ gfDiv buildGf 0#8 b = some 0#8) ∧
    gfDiv buildGf a 0#8 = none

/-- R97 to R99: the coefficient vectors are the listed ones, and V0[j] = V1[j] ^ 1. -/
def Obligations.CoefficientVectors : Prop :=
  vectorV1 buildGf = some
    ([0xAE#8, 0xD9#8, 0x6C#8, 0xB8#8, 0xD2#8, 0xE7#8, 0x73#8, 0x39#8, 0x1C#8, 0x80#8, 0xCE#8, 0xE9#8, 0x74#8, 0xB4#8, 0xD4#8] ++
     [0xE4#8, 0xFC#8, 0xF0#8, 0xF6#8, 0xF5#8, 0x7A#8, 0xB3#8, 0x59#8, 0x2C#8, 0x98#8, 0xC2#8, 0xEF#8, 0x77#8, 0x3B#8, 0x1D#8] ++
     [0x0E#8, 0x89#8, 0x44#8, 0xAC#8, 0xD8#8, 0xE2#8, 0xFF#8, 0x7F#8, 0x3F#8, 0x1F#8, 0x0F#8, 0x07#8, 0x03#8, 0x01#8, 0x00#8]) ∧
  vectorV0 buildGf = (vectorV1 buildGf).map fun v => v.map fun x => x ^^^ 0x01#8

/-! ### EDC and EDCW (spec/41_edc.md) -/

/-- R117: the two constructions of the CRC table agree on every index. -/
def Obligations.CrcTableTwoForms : Prop := ∀ n : Byte, crcEntry n = crcEntryLsb n

/-- R122: the table form of the checksum equals the bit-serial form, on every byte sequence. -/
def Obligations.ChecksumEqualsBitSerial : Prop := ∀ bytes : List Byte, edcOf bytes = edcBitSerial bytes

/-- R123: the checksum of a concatenation continues from the checksum of its first part. -/
def Obligations.ChecksumStreams : Prop := ∀ a b : List Byte, edcOf (a ++ b) = edcFrom (edcOf a) b

/-- R124: the checksum is linear over XOR on sequences of equal length, and has the listed corner values. -/
def Obligations.ChecksumIsLinear : Prop :=
  (∀ a b : List Byte, a.length = b.length → edcOf (List.zipWith (fun x y => x ^^^ y) a b) = edcOf a ^^^ edcOf b) ∧
  edcOf [] = 0#32 ∧ edcOf [0x00#8] = 0#32 ∧ edcOf [0x01#8] = 0x90910101#32 ∧ edcOf [0x80#8] = 0xD8018001#32 ∧
  edcOf [0xFF#8] = 0x7070FF00#32 ∧ edcOf [0x01#8, 0x00#8] = 0x90019000#32 ∧ edcOf [0x00#8, 0x01#8] = 0x90910101#32 ∧
  edcOf (List.replicate 2064 0x00#8) = 0#32 ∧ edcOf (List.replicate 2064 0xAA#8) = 0x698F520A#32 ∧
  edcOf (List.replicate 2064 0x55#8) = 0x34C7A905#32

/-- R119, R120: EDC of a legal range whose cells hold `d` completes with EDC_RESULT their checksum, the empty range
included; BUF is unchanged, and the tables are built afterwards. -/
def Obligations.EdcComputesRange : Prop :=
  ∀ (off len : Nat) (d : Nat → Byte) (s : State), TablesOk s → off + len ≤ 2352 →
    (∀ k < len, s.buf.read (off + k) = some (d (off + k))) →
    ∃ t, exec (.edc off len) s = .next t ∧ t.edcResult = some (edcOf (bytesFrom d off len)) ∧ t.buf = s.buf ∧
      TablesBuilt t ∧ CompletedFrom s t

/-- R174: EDC with OFF + LEN > 2352 completes with RANGE, ERR = 0x3, and nothing else: no EDC_RESULT, no tables. -/
def Obligations.EdcRangeError : Prop :=
  Err.range.code = 0x3#4 ∧
  ∀ (off len : Nat) (s : State), 2352 < off + len → exec (.edc off len) s = .next (complete .range s)

/-- R54, R121: EDCW puts the checksum of BUF[0..2063] little-endian into BUF[2064..2067] and into EDC_RESULT, and writes
nothing else of BUF. -/
def Obligations.EdcwWritesSectorEdc : Prop :=
  ∀ (d : Nat → Byte) (s : State), TablesOk s → Holds s 0 2063 d →
    ∃ t e, e = edcOf (bytesFrom d 0 2064) ∧ exec .edcw s = .next t ∧ t.edcResult = some e ∧
      t.buf.read 2064 = some (e.extractLsb' 0 8) ∧ t.buf.read 2065 = some (e.extractLsb' 8 8) ∧
      t.buf.read 2066 = some (e.extractLsb' 16 8) ∧ t.buf.read 2067 = some (e.extractLsb' 24 8) ∧
      BufSameOutside s t 2064 2067 ∧ TablesBuilt t ∧ CompletedFrom s t

/-! ### PPAR and QPAR (spec/42_parity.md) -/

/-- R130 to R135: PPAR puts the two check symbols of each of the 86 columns at 2076 + m and 2162 + m, and changes no other
BUF cell and no register. -/
def Obligations.PparWritesCheckSymbols : Prop :=
  ∀ (d : Nat → Byte) (s : State), TablesOk s → Holds s 12 2075 d →
    ∃ t, exec .ppar s = .next t ∧
      (∀ m < 86, t.buf.read (2076 + m) = some (pSymbol v1At d m) ∧ t.buf.read (2162 + m) = some (pSymbol v0At d m)) ∧
      BufSameOutside s t 2076 2247 ∧ t.edcResult = s.edcResult ∧ TablesBuilt t ∧ CompletedFrom s t

/-- R130 to R132, R136 to R138: QPAR puts the two check symbols of each of the 52 diagonals at 2248 + m and 2300 + m, and
changes no other BUF cell and no register. -/
def Obligations.QparWritesCheckSymbols : Prop :=
  ∀ (d : Nat → Byte) (s : State), TablesOk s → Holds s 12 2247 d →
    ∃ t, exec .qpar s = .next t ∧
      (∀ m < 52, t.buf.read (2248 + m) = some (qSymbol v1At d m) ∧ t.buf.read (2300 + m) = some (qSymbol v0At d m)) ∧
      BufSameOutside s t 2248 2351 ∧ t.edcResult = s.edcResult ∧ TablesBuilt t ∧ CompletedFrom s t

/-- R133, R136, R139: the cells PPAR's traversal reads are 12..2075, each once, and QPAR's 12..2247, each once. -/
def Obligations.ParityReadsEachCellOnce : Prop :=
  let cells := fun (steps : Nat → List (Nat × Nat)) (n : Nat) =>
    (List.range n).flatMap fun i => (steps i).flatMap fun ro => [ro.2, ro.2 + 1]
  (cells pSteps 43).Nodup ∧ (∀ a, a ∈ cells pSteps 43 ↔ 12 ≤ a ∧ a ≤ 2075) ∧
  (cells qSteps 26).Nodup ∧ (∀ a, a ∈ cells qSteps 26 ↔ 12 ≤ a ∧ a ≤ 2247)

/-- R132, R142: P and Q are linear over XOR, column by column and diagonal by diagonal, and zero on zero data. -/
def Obligations.ParityIsLinear : Prop :=
  ∀ (c d d' : Nat → Byte) (m : Nat),
    pSymbol c (fun a => d a ^^^ d' a) m = pSymbol c d m ^^^ pSymbol c d' m ∧
    qSymbol c (fun a => d a ^^^ d' a) m = qSymbol c d m ^^^ qSymbol c d' m ∧
    pSymbol c (fun _ => 0x00#8) m = 0x00#8 ∧ qSymbol c (fun _ => 0x00#8) m = 0x00#8

/-- R140: after PPAR each of the 86 P columns, data and two check symbols, is a codeword of the (26,24) code. -/
def Obligations.PparColumnsAreCodewords : Prop :=
  ∀ (d : Nat → Byte) (s t : State), TablesOk s → Holds s 12 2075 d → exec .ppar s = .next t →
    ∀ m < 86, ∃ p0 p1, t.buf.read (2076 + m) = some p0 ∧ t.buf.read (2162 + m) = some p1 ∧
      (xorSum 24 fun k => d (12 + m + 86 * k)) ^^^ p0 ^^^ p1 = 0#8 ∧
      (xorSum 24 fun k => gfMul (d (12 + m + 86 * k)) (alphaPow (25 - k))) ^^^ gfMul p0 (alphaPow 1) ^^^ p1 = 0#8

/-- R141: after QPAR each of the 52 Q diagonals, data and two check symbols, is a codeword of the (45,43) code. -/
def Obligations.QparDiagonalsAreCodewords : Prop :=
  ∀ (d : Nat → Byte) (s t : State), TablesOk s → Holds s 12 2247 d → exec .qpar s = .next t →
    ∀ i < 26, ∀ h < 2, ∃ p0 p1,
      t.buf.read (2248 + (2 * i + h)) = some p0 ∧ t.buf.read (2300 + (2 * i + h)) = some p1 ∧
      (xorSum 43 fun k => d (12 + (86 * i + 88 * k) % 2236 + h)) ^^^ p0 ^^^ p1 = 0#8 ∧
      (xorSum 43 fun k => gfMul (d (12 + (86 * i + 88 * k) % 2236 + h)) (alphaPow (44 - k))) ^^^
        gfMul p0 (alphaPow 1) ^^^ p1 = 0#8

/-! ### HDR and ENCODE (spec/43_sector.md) -/

/-- R150, R153, R154: HDR with a legal LBA writes the sync pattern, the BCD timecode of F = LBA + 150 and the mode byte,
zeros 2064..2351, leaves 16..2063 and every table, and writes no EDC_RESULT. -/
def Obligations.HdrWritesFixedFields : Prop :=
  ∀ (s : State) (l : Word), s.lba = some l → l.toNat ≤ 449849 →
    ∃ t, exec .hdr s = .next t ∧
      t.buf.read 0 = some 0x00#8 ∧ (∀ a, 1 ≤ a → a ≤ 10 → t.buf.read a = some 0xFF#8) ∧ t.buf.read 11 = some 0x00#8 ∧
      t.buf.read 12 = some (bcd ((l.toNat + 150) / 4500)) ∧ t.buf.read 13 = some (bcd ((l.toNat + 150) / 75 % 60)) ∧
      t.buf.read 14 = some (bcd ((l.toNat + 150) % 75)) ∧ t.buf.read 15 = some 0x01#8 ∧
      (∀ a, 2064 ≤ a → a ≤ 2351 → t.buf.read a = some 0x00#8) ∧
      (∀ a, (16 ≤ a ∧ a ≤ 2063) ∨ 2351 < a → t.buf.read a = s.buf.read a) ∧
      t.tables = s.tables ∧ t.tv = s.tv ∧ t.edcResult = s.edcResult ∧ CompletedFrom s t

/-- R152: the BCD byte holds the tens digit in its high nibble and the ones digit in its low nibble. -/
def Obligations.BcdHoldsTwoDigits : Prop :=
  (∀ v < 100, (bcd v).toNat = v / 10 * 16 + v % 10 ∧ v / 10 ≤ 9 ∧ v % 10 ≤ 9) ∧
  bcd 0 = 0x00#8 ∧ bcd 2 = 0x02#8 ∧ bcd 59 = 0x59#8 ∧ bcd 74 = 0x74#8 ∧ bcd 99 = 0x99#8

/-- R150, R151: the minute stays at most 99 exactly for LBA ≤ 449849; seconds and frames are always in range. -/
def Obligations.TimecodeRange : Prop :=
  ∀ l : Nat, ((timecode l).1 ≤ 99 ↔ l ≤ 449849) ∧ (timecode l).2.1 < 60 ∧ (timecode l).2.2 < 75 ∧
    l + 150 = (timecode l).1 * 4500 + (timecode l).2.1 * 75 + (timecode l).2.2

/-- R175: HDR, and ENCODE after its length check, with LBA > 449849 complete with LBA_RANGE, ERR = 0x4, and nothing
else. -/
def Obligations.LbaRangeError : Prop :=
  Err.lbaRange.code = 0x4#4 ∧
  ∀ (s : State) (l : Word), s.lba = some l → 449849 < l.toNat →
    exec .hdr s = .next (complete .lbaRange s) ∧
    (s.dlen = some 2048#32 → exec .encode s = .next (complete .lbaRange s))

/-- R172, R179: ENCODE with DLEN ≠ 2048 completes with SIZE_MISMATCH, ERR = 0x1, and nothing else, whatever LBA and BUF
hold. -/
def Obligations.SizeMismatchError : Prop :=
  Err.sizeMismatch.code = 0x1#4 ∧
  ∀ (s : State) (n : Word), s.dlen = some n → n ≠ 2048#32 → exec .encode s = .next (complete .sizeMismatch s)

/-- R155, R157: ENCODE with DLEN = 2048, a legal LBA and the data `d` in BUF[16..2063] completes with a whole sector `x` in
BUF[0..2351]: sync, timecode, mode, the data, the checksum of bytes 0..2063, eight zeros, the P symbols of x, the Q
symbols of x; EDC_RESULT is the checksum. -/
def Obligations.EncodeBuildsSector : Prop :=
  ∀ (s : State) (l : Word) (d : Nat → Byte), TablesOk s → s.dlen = some 2048#32 → s.lba = some l → l.toNat ≤ 449849 →
    Holds s 16 2063 d →
    ∃ (t : State) (x : Nat → Byte) (e : Word), exec .encode s = .next t ∧ Holds t 0 2351 x ∧
      x 0 = 0x00#8 ∧ (∀ a, 1 ≤ a → a ≤ 10 → x a = 0xFF#8) ∧ x 11 = 0x00#8 ∧
      x 12 = bcd ((l.toNat + 150) / 4500) ∧ x 13 = bcd ((l.toNat + 150) / 75 % 60) ∧ x 14 = bcd ((l.toNat + 150) % 75) ∧
      x 15 = 0x01#8 ∧ (∀ a, 16 ≤ a → a ≤ 2063 → x a = d a) ∧
      e = edcOf (bytesFrom x 0 2064) ∧ (∀ k < 4, x (2064 + k) = e.extractLsb' (8 * k) 8) ∧
      (∀ a, 2068 ≤ a → a ≤ 2075 → x a = 0x00#8) ∧
      (∀ m < 86, x (2076 + m) = pSymbol v1At x m ∧ x (2162 + m) = pSymbol v0At x m) ∧
      (∀ m < 52, x (2248 + m) = qSymbol v1At x m ∧ x (2300 + m) = qSymbol v0At x m) ∧
      t.edcResult = some e ∧ TablesBuilt t ∧ (∀ a, 2351 < a → t.buf.read a = s.buf.read a) ∧ CompletedFrom s t

/-- R156: ENCODE completes normally with the state `t` exactly when DLEN = 2048 and the sequence HDR, EDCW, PPAR, QPAR,
each completing normally, ends in `t`. -/
def Obligations.EncodeEqualsCommandSequence : Prop :=
  ∀ s t : State, (exec .encode s = .next t ∧ t.err = .none) ↔
    (s.dlen = some 2048#32 ∧ ∃ t1 t2 t3, exec .hdr s = .next t1 ∧ t1.err = .none ∧ exec .edcw t1 = .next t2 ∧
      t2.err = .none ∧ exec .ppar t2 = .next t3 ∧ t3.err = .none ∧ exec .qpar t3 = .next t ∧ t.err = .none)

/-- R155: ENCODE's sector and EDC_RESULT depend only on LBA and BUF[16..2063]; what BUF[0..15] and BUF[2064..2351] held, the
tables, STATUS and the host's side do not matter. -/
def Obligations.EncodeDependsOnlyOnInputs : Prop :=
  ∀ s s' t t' : State, TablesOk s → TablesOk s' → s.lba = s'.lba →
    (∀ a, 16 ≤ a → a ≤ 2063 → s.buf.read a = s'.buf.read a) →
    exec .encode s = .next t → exec .encode s' = .next t' → t.err = .none → t'.err = .none →
    (∀ a < 2352, t.buf.read a = t'.buf.read a) ∧ t.edcResult = t'.edcResult

/-- R155, R186: ENCODE run again on its own result gives the same BUF and EDC_RESULT. -/
def Obligations.EncodeTwiceIsEncode : Prop :=
  ∀ s t : State, TablesOk s → exec .encode s = .next t → t.err = .none →
    ∃ u, exec .encode t = .next u ∧ u.err = .none ∧ (∀ a, u.buf.read a = t.buf.read a) ∧ u.edcResult = t.edcResult

/-! ### The host bus (spec/20_memory.md, spec/10_state.md) -/

/-- R32: a CMD write while idle accepts the word; under FATAL it only sets DONE and ERR = 0xF; while BUSY it is the hazard;
and CMD cannot be read. -/
def Obligations.CmdWriteAccepts : Prop :=
  ∀ (s : State) (rest : List HostStmt),
    (∀ w, HostNext s (.write 0x1000#16 4 w) rest →
      (s.busy = false → s.fatal = false → ∃ u, step s = .next u ∧
        u = { taken s rest with pend := some w, busy := true, done := false, err := .none,
                                accepted := u.accepted, stall := u.stall }) ∧
      (s.busy = false → s.fatal = true → step s = .next { taken s rest with done := true, err := .invariant }) ∧
      (s.busy = true → MeetsFault s (.hostHazard 0x1000#16))) ∧
    (∀ n, HostNext s (.read 0x1000#16 n) rest → MeetsFault s (.hostAccessFault 0x1000#16 n))

/-- R33, R36, R38: the fields of the STATUS word, its reserved bits zero, its value after reset; a write of STATUS is
HostAccessFault; and under the invariant BUSY and DONE are never both 1. -/
def Obligations.StatusWordFields : Prop :=
  (∀ s : State,
    s.statusWord.getLsbD 0 = s.busy ∧ s.statusWord.getLsbD 1 = s.done ∧ s.statusWord.getLsbD 2 = s.tv ∧
    s.statusWord.getLsbD 3 = s.fatal ∧ s.statusWord.extractLsb' 4 4 = 0#4 ∧ s.statusWord.extractLsb' 8 4 = s.err.code ∧
    s.statusWord.extractLsb' 12 20 = 0#20 ∧ (s.Inv → ¬ (s.busy = true ∧ s.done = true)) ∧
    (∀ n v rest, HostNext s (.write 0x1004#16 n v) rest → MeetsFault s (.hostAccessFault 0x1004#16 n))) ∧
  State.reset.statusWord = 0#32

/-- R51, R58, R59: exactly the accesses outside these offsets, widths and alignments are HostAccessFault, whatever the
state. -/
def Obligations.MalformedAccessFaults : Prop :=
  ∀ (s : State) (a : Offset) (n : Nat) (rest : List HostStmt),
    (HostNext s (.read a n) rest →
      (MeetsFault s (.hostAccessFault a n) ↔
        ¬ (((n = 1 ∨ n = 2 ∨ n = 4) ∧ a.toNat % n = 0 ∧
            (a.toNat ≤ 0x092F ∨ (0x2000 ≤ a.toNat ∧ a.toNat ≤ 0x21FF) ∨ (0x2400 ≤ a.toNat ∧ a.toNat ≤ 0x27FF) ∨
              (0x4000 ≤ a.toNat ∧ a.toNat ≤ 0x95FF))) ∨
          (n = 4 ∧ (a = 0x1004#16 ∨ a = 0x1008#16 ∨ a = 0x100C#16 ∨ a = 0x1010#16))))) ∧
    (∀ v, HostNext s (.write a n v) rest →
      (MeetsFault s (.hostAccessFault a n) ↔
        ¬ (((n = 1 ∨ n = 2 ∨ n = 4) ∧ a.toNat % n = 0 ∧ a.toNat ≤ 0x092F) ∨
          (n = 4 ∧ (a = 0x1000#16 ∨ a = 0x1008#16 ∨ a = 0x100C#16)))))

/-- R52, R196: while BUSY = 1 a well-formed access other than a read of STATUS, LBA or DLEN is HostHazard, and a read of
one of those is not. -/
def Obligations.BusyAccessIsHazard : Prop :=
  ∀ (s : State) (a : Offset) (n : Nat) (rest : List HostStmt), s.busy = true →
    (HostNext s (.read a n) rest → readPermitted a n = true →
      (MeetsFault s (.hostHazard a) ↔ ¬ (a = 0x1004#16 ∨ a = 0x1008#16 ∨ a = 0x100C#16))) ∧
    (∀ v, HostNext s (.write a n v) rest → writePermitted a n = true → MeetsFault s (.hostHazard a))

/-- R53, R56, R60: a permitted read of cells that hold `b` returns their little-endian value, zero-extended, and changes
nothing else; a cell with no value makes it UnwrittenRead. -/
def Obligations.HostReadIsLittleEndian : Prop :=
  ∀ (s : State) (a : Offset) (n : Nat) (rest : List HostStmt), HostNext s (.read a n) rest → readPermitted a n = true →
    (s.busy = false ∨ readableWhileBusy a = true) →
    (∀ b : Nat → Byte, (∀ k < n, s.cell (a.toNat + k) = some (b k)) →
      ∃ v : Word, v.toNat = (∑ k ∈ Finset.range n, (b k).toNat * 2 ^ (8 * k)) ∧
        step s = .next { taken s rest with reads := s.reads ++ [v] }) ∧
    ((∃ k < n, s.cell (a.toNat + k) = none) → MeetsFault s (.unwrittenRead (.bus a)))

/-- R51, R53, R55: which byte each readable offset names: BUF, the table windows, the registers, all little-endian. -/
def Obligations.WindowsNameTheirCells : Prop :=
  ∀ s : State,
    (∀ a < 2352, s.cell a = s.buf.read a) ∧
    (∀ x < 256, s.cell (0x2000 + x) = s.tables.log[x]?.join ∧ s.cell (0x2100 + x) = s.tables.ilog[x]?.join) ∧
    (∀ n < 256, ∀ k < 4, s.cell (0x2400 + 4 * n + k) = (s.tables.crcAt n).map fun w => w.extractLsb' (8 * k) 8) ∧
    (∀ r < 43, ∀ v < 256, s.cell (0x4000 + 512 * r + 2 * v) = (s.tables.pqtAt r v).map lowLane ∧
      s.cell (0x4000 + 512 * r + 2 * v + 1) = (s.tables.pqtAt r v).map highLane) ∧
    (∀ k < 4, s.cell (0x1004 + k) = some (s.statusWord.extractLsb' (8 * k) 8) ∧
      s.cell (0x1008 + k) = s.lba.map (fun w => w.extractLsb' (8 * k) 8) ∧
      s.cell (0x100C + k) = s.dlen.map (fun w => w.extractLsb' (8 * k) 8) ∧
      s.cell (0x1010 + k) = s.edcResult.map (fun w => w.extractLsb' (8 * k) 8))

/-- R53, R57: a permitted host write of BUF while idle stores the low n bytes of v, lowest first, and changes no other
cell and no register. -/
def Obligations.HostWriteStoresBytes : Prop :=
  ∀ (s : State) (a : Offset) (n : Nat) (v : Word) (rest : List HostStmt), HostNext s (.write a n v) rest →
    s.busy = false → (n = 1 ∨ n = 2 ∨ n = 4) → a.toNat % n = 0 → a.toNat ≤ 0x092F →
    ∃ t, step s = .next t ∧ t = { taken s rest with buf := t.buf } ∧
      (∀ k < n, t.buf.read (a.toNat + k) = some (v.extractLsb' (8 * k) 8)) ∧
      (∀ x, x < a.toNat ∨ a.toNat + n ≤ x → t.buf.read x = s.buf.read x)

/-- R39, R40, R57: a host write of LBA or DLEN while idle stores the word in that register and changes nothing else. -/
def Obligations.RegisterWriteStoresWord : Prop :=
  ∀ (s : State) (v : Word) (rest : List HostStmt), s.busy = false →
    (HostNext s (.write 0x1008#16 4 v) rest → step s = .next { taken s rest with lba := some v }) ∧
    (HostNext s (.write 0x100C#16 4 v) rest → step s = .next { taken s rest with dlen := some v })

/-- R45, R190, R191: the reset input puts the block in the reset state whatever it held, a command in flight and its PEND
included. That the host's remaining statements, its read values, its check flag and the acceptance counter stay is the
model's choice (log entry 16). -/
def Obligations.ResetRestoresResetState : Prop :=
  ∀ (s : State) (rest : List HostStmt), HostNext s .reset rest →
    step s = .next { State.reset with host := rest, reads := s.reads, checkFailed := s.checkFailed, accepted := s.accepted }

/-- R79, R80: `wait` ends at the first read of STATUS with BUSY = 0, and `check` records a failure exactly when ERR ≠ 0. -/
def Obligations.WaitAndCheckReadStatus : Prop :=
  ∀ (s : State) (rest : List HostStmt),
    (HostNext s .wait rest → step s = .next { taken s rest with host := if s.busy then .wait :: rest else rest }) ∧
    (HostNext s .check rest → step s = .next { taken s rest with
      reads := s.reads ++ [s.statusWord], checkFailed := s.checkFailed || decide (s.err ≠ .none) })

/-- R50: host address BLOCK_BASE + a names block offset a, and no other address does. -/
def Obligations.WindowStartsAtBlockBase : Prop :=
  (∀ a : Offset, blockOffset (hostAddress a) = some a) ∧
  (∀ (addr : Nat) (a : Offset), blockOffset addr = some a → addr = hostAddress a)

/-- R80: the expansions of the command pseudo-instructions, EDCS, `issue` and `fill`. -/
def Obligations.PseudoInstructionsExpand : Prop :=
  (∀ i : Instr, expand (.command i) = [.write 0x1000#16 4 (encode i), .wait]) ∧
  expand .edcs = [.write 0x1000#16 4 0x81000002#32, .wait] ∧
  (∀ w, expand (.issue w) = [.write 0x1000#16 4 w]) ∧
  (∀ (a : Offset) (n : Nat) (b : Byte),
    expand (.fill a n b) = (List.range n).map fun k => .write (BitVec.ofNat 16 (a.toNat + k)) 1 (b.setWidth 32))

/-! ### Model faults (spec/60_exceptions.md) -/

/-- R177: a command or host statement that meets a model fault has it appended to the fault record, and nothing else
happens; the run has then ended with that fault, so every later step answers it and no normal end is left (log entry 6). No
step removes a fault from the record but the reset input, in a run no fault has ended (log entry 7). -/
def Obligations.ModelFaultIsRecordedForGood : Prop :=
  (∀ (s : State) (w : Word) (i : Instr) (f : Fault), EngineNext s w → decode w = .command i → exec i s = .fault f →
    step s = .next { s with faults := s.faults ++ [f] } ∧ step { s with faults := s.faults ++ [f] } = .fault f) ∧
  (∀ (s : State) (st : HostStmt) (rest : List HostStmt) (f : Fault), HostNext s st rest →
    runStmt st (taken s rest) = .fault f →
    step s = .next { s with faults := s.faults ++ [f] } ∧ step { s with faults := s.faults ++ [f] } = .fault f) ∧
  (∀ s t : State, step s = .next t → s.faults <+: t.faults ∨ ∃ rest, HostNext s .reset rest) ∧
  (∀ (s : State) (f : Fault), step s = .fault f → f ∈ s.faults ∧ ¬ NormalEnd s)
end

