-- ==== Sys2Proof/Laws/State.lean ====
section
/-! SUPPORT. One lemma per field per update of the state, so that no proof unfolds a record update. -/

namespace Sys2Proof.Machine

/-! ### latch: acceptance -/

@[simp] theorem latch_buf (w : Word) (s : State) : (latch w s).buf = s.buf := rfl
@[simp] theorem latch_tables (w : Word) (s : State) : (latch w s).tables = s.tables := rfl
@[simp] theorem latch_tv (w : Word) (s : State) : (latch w s).tv = s.tv := rfl
@[simp] theorem latch_busy (w : Word) (s : State) : (latch w s).busy = true := rfl
@[simp] theorem latch_done (w : Word) (s : State) : (latch w s).done = false := rfl
@[simp] theorem latch_fatal (w : Word) (s : State) : (latch w s).fatal = s.fatal := rfl
@[simp] theorem latch_err (w : Word) (s : State) : (latch w s).err = .none := rfl
@[simp] theorem latch_pend (w : Word) (s : State) : (latch w s).pend = some w := rfl
@[simp] theorem latch_lba (w : Word) (s : State) : (latch w s).lba = s.lba := rfl
@[simp] theorem latch_dlen (w : Word) (s : State) : (latch w s).dlen = s.dlen := rfl
@[simp] theorem latch_edcResult (w : Word) (s : State) : (latch w s).edcResult = s.edcResult := rfl
@[simp] theorem latch_faults (w : Word) (s : State) : (latch w s).faults = s.faults := rfl
@[simp] theorem latch_host (w : Word) (s : State) : (latch w s).host = s.host := rfl
@[simp] theorem latch_reads (w : Word) (s : State) : (latch w s).reads = s.reads := rfl
@[simp] theorem latch_checkFailed (w : Word) (s : State) : (latch w s).checkFailed = s.checkFailed := rfl
@[simp] theorem latch_accepted (w : Word) (s : State) : (latch w s).accepted = s.accepted := rfl
@[simp] theorem latch_stall (w : Word) (s : State) : (latch w s).stall = s.stall := rfl

/-! ### complete: completion -/

@[simp] theorem complete_buf (e : Err) (s : State) : (complete e s).buf = s.buf := rfl
@[simp] theorem complete_tables (e : Err) (s : State) : (complete e s).tables = s.tables := rfl
@[simp] theorem complete_tv (e : Err) (s : State) : (complete e s).tv = s.tv := rfl
@[simp] theorem complete_busy (e : Err) (s : State) : (complete e s).busy = false := rfl
@[simp] theorem complete_done (e : Err) (s : State) : (complete e s).done = true := rfl
@[simp] theorem complete_fatal (e : Err) (s : State) : (complete e s).fatal = s.fatal := rfl
@[simp] theorem complete_err (e : Err) (s : State) : (complete e s).err = e := rfl
@[simp] theorem complete_pend (e : Err) (s : State) : (complete e s).pend = none := rfl
@[simp] theorem complete_lba (e : Err) (s : State) : (complete e s).lba = s.lba := rfl
@[simp] theorem complete_dlen (e : Err) (s : State) : (complete e s).dlen = s.dlen := rfl
@[simp] theorem complete_edcResult (e : Err) (s : State) : (complete e s).edcResult = s.edcResult := rfl
@[simp] theorem complete_faults (e : Err) (s : State) : (complete e s).faults = s.faults := rfl
@[simp] theorem complete_host (e : Err) (s : State) : (complete e s).host = s.host := rfl
@[simp] theorem complete_reads (e : Err) (s : State) : (complete e s).reads = s.reads := rfl
@[simp] theorem complete_checkFailed (e : Err) (s : State) : (complete e s).checkFailed = s.checkFailed := rfl
@[simp] theorem complete_accepted (e : Err) (s : State) : (complete e s).accepted = s.accepted := rfl
@[simp] theorem complete_stall (e : Err) (s : State) : (complete e s).stall = s.stall := rfl

/-! ### refuseUnderFatal: a CMD write refused under FATAL -/

@[simp] theorem refuseUnderFatal_buf (s : State) : (refuseUnderFatal s).buf = s.buf := rfl
@[simp] theorem refuseUnderFatal_tables (s : State) : (refuseUnderFatal s).tables = s.tables := rfl
@[simp] theorem refuseUnderFatal_tv (s : State) : (refuseUnderFatal s).tv = s.tv := rfl
@[simp] theorem refuseUnderFatal_busy (s : State) : (refuseUnderFatal s).busy = s.busy := rfl
@[simp] theorem refuseUnderFatal_done (s : State) : (refuseUnderFatal s).done = true := rfl
@[simp] theorem refuseUnderFatal_fatal (s : State) : (refuseUnderFatal s).fatal = s.fatal := rfl
@[simp] theorem refuseUnderFatal_err (s : State) : (refuseUnderFatal s).err = .invariant := rfl
@[simp] theorem refuseUnderFatal_pend (s : State) : (refuseUnderFatal s).pend = s.pend := rfl
@[simp] theorem refuseUnderFatal_lba (s : State) : (refuseUnderFatal s).lba = s.lba := rfl
@[simp] theorem refuseUnderFatal_dlen (s : State) : (refuseUnderFatal s).dlen = s.dlen := rfl
@[simp] theorem refuseUnderFatal_edcResult (s : State) : (refuseUnderFatal s).edcResult = s.edcResult := rfl
@[simp] theorem refuseUnderFatal_faults (s : State) : (refuseUnderFatal s).faults = s.faults := rfl
@[simp] theorem refuseUnderFatal_host (s : State) : (refuseUnderFatal s).host = s.host := rfl
@[simp] theorem refuseUnderFatal_reads (s : State) : (refuseUnderFatal s).reads = s.reads := rfl
@[simp] theorem refuseUnderFatal_checkFailed (s : State) : (refuseUnderFatal s).checkFailed = s.checkFailed := rfl
@[simp] theorem refuseUnderFatal_accepted (s : State) : (refuseUnderFatal s).accepted = s.accepted := rfl
@[simp] theorem refuseUnderFatal_stall (s : State) : (refuseUnderFatal s).stall = s.stall := rfl

/-! ### writeBuf: a write of BUF -/

@[simp] theorem writeBuf_buf (s : State) (a : Nat) (bs : List Byte) : (writeBuf s a bs).buf = s.buf.writeBytes a bs := rfl
@[simp] theorem writeBuf_tables (s : State) (a : Nat) (bs : List Byte) : (writeBuf s a bs).tables = s.tables := rfl
@[simp] theorem writeBuf_tv (s : State) (a : Nat) (bs : List Byte) : (writeBuf s a bs).tv = s.tv := rfl
@[simp] theorem writeBuf_busy (s : State) (a : Nat) (bs : List Byte) : (writeBuf s a bs).busy = s.busy := rfl
@[simp] theorem writeBuf_done (s : State) (a : Nat) (bs : List Byte) : (writeBuf s a bs).done = s.done := rfl
@[simp] theorem writeBuf_fatal (s : State) (a : Nat) (bs : List Byte) : (writeBuf s a bs).fatal = s.fatal := rfl
@[simp] theorem writeBuf_err (s : State) (a : Nat) (bs : List Byte) : (writeBuf s a bs).err = s.err := rfl
@[simp] theorem writeBuf_pend (s : State) (a : Nat) (bs : List Byte) : (writeBuf s a bs).pend = s.pend := rfl
@[simp] theorem writeBuf_lba (s : State) (a : Nat) (bs : List Byte) : (writeBuf s a bs).lba = s.lba := rfl
@[simp] theorem writeBuf_dlen (s : State) (a : Nat) (bs : List Byte) : (writeBuf s a bs).dlen = s.dlen := rfl
@[simp] theorem writeBuf_edcResult (s : State) (a : Nat) (bs : List Byte) : (writeBuf s a bs).edcResult = s.edcResult := rfl
@[simp] theorem writeBuf_faults (s : State) (a : Nat) (bs : List Byte) : (writeBuf s a bs).faults = s.faults := rfl
@[simp] theorem writeBuf_host (s : State) (a : Nat) (bs : List Byte) : (writeBuf s a bs).host = s.host := rfl
@[simp] theorem writeBuf_reads (s : State) (a : Nat) (bs : List Byte) : (writeBuf s a bs).reads = s.reads := rfl
@[simp] theorem writeBuf_checkFailed (s : State) (a : Nat) (bs : List Byte) : (writeBuf s a bs).checkFailed = s.checkFailed := rfl
@[simp] theorem writeBuf_accepted (s : State) (a : Nat) (bs : List Byte) : (writeBuf s a bs).accepted = s.accepted := rfl
@[simp] theorem writeBuf_stall (s : State) (a : Nat) (bs : List Byte) : (writeBuf s a bs).stall = s.stall := rfl

/-! ### setTables: the tables put in place -/

@[simp] theorem setTables_buf (t : Tables) (s : State) : (setTables t s).buf = s.buf := rfl
@[simp] theorem setTables_tables (t : Tables) (s : State) : (setTables t s).tables = t := rfl
@[simp] theorem setTables_tv (t : Tables) (s : State) : (setTables t s).tv = true := rfl
@[simp] theorem setTables_busy (t : Tables) (s : State) : (setTables t s).busy = s.busy := rfl
@[simp] theorem setTables_done (t : Tables) (s : State) : (setTables t s).done = s.done := rfl
@[simp] theorem setTables_fatal (t : Tables) (s : State) : (setTables t s).fatal = s.fatal := rfl
@[simp] theorem setTables_err (t : Tables) (s : State) : (setTables t s).err = s.err := rfl
@[simp] theorem setTables_pend (t : Tables) (s : State) : (setTables t s).pend = s.pend := rfl
@[simp] theorem setTables_lba (t : Tables) (s : State) : (setTables t s).lba = s.lba := rfl
@[simp] theorem setTables_dlen (t : Tables) (s : State) : (setTables t s).dlen = s.dlen := rfl
@[simp] theorem setTables_edcResult (t : Tables) (s : State) : (setTables t s).edcResult = s.edcResult := rfl
@[simp] theorem setTables_faults (t : Tables) (s : State) : (setTables t s).faults = s.faults := rfl
@[simp] theorem setTables_host (t : Tables) (s : State) : (setTables t s).host = s.host := rfl
@[simp] theorem setTables_reads (t : Tables) (s : State) : (setTables t s).reads = s.reads := rfl
@[simp] theorem setTables_checkFailed (t : Tables) (s : State) : (setTables t s).checkFailed = s.checkFailed := rfl
@[simp] theorem setTables_accepted (t : Tables) (s : State) : (setTables t s).accepted = s.accepted := rfl
@[simp] theorem setTables_stall (t : Tables) (s : State) : (setTables t s).stall = s.stall := rfl

/-! ### setEdcResult: a write of EDC_RESULT -/

@[simp] theorem setEdcResult_buf (e : Word) (s : State) : (setEdcResult e s).buf = s.buf := rfl
@[simp] theorem setEdcResult_tables (e : Word) (s : State) : (setEdcResult e s).tables = s.tables := rfl
@[simp] theorem setEdcResult_tv (e : Word) (s : State) : (setEdcResult e s).tv = s.tv := rfl
@[simp] theorem setEdcResult_busy (e : Word) (s : State) : (setEdcResult e s).busy = s.busy := rfl
@[simp] theorem setEdcResult_done (e : Word) (s : State) : (setEdcResult e s).done = s.done := rfl
@[simp] theorem setEdcResult_fatal (e : Word) (s : State) : (setEdcResult e s).fatal = s.fatal := rfl
@[simp] theorem setEdcResult_err (e : Word) (s : State) : (setEdcResult e s).err = s.err := rfl
@[simp] theorem setEdcResult_pend (e : Word) (s : State) : (setEdcResult e s).pend = s.pend := rfl
@[simp] theorem setEdcResult_lba (e : Word) (s : State) : (setEdcResult e s).lba = s.lba := rfl
@[simp] theorem setEdcResult_dlen (e : Word) (s : State) : (setEdcResult e s).dlen = s.dlen := rfl
@[simp] theorem setEdcResult_edcResult (e : Word) (s : State) : (setEdcResult e s).edcResult = some e := rfl
@[simp] theorem setEdcResult_faults (e : Word) (s : State) : (setEdcResult e s).faults = s.faults := rfl
@[simp] theorem setEdcResult_host (e : Word) (s : State) : (setEdcResult e s).host = s.host := rfl
@[simp] theorem setEdcResult_reads (e : Word) (s : State) : (setEdcResult e s).reads = s.reads := rfl
@[simp] theorem setEdcResult_checkFailed (e : Word) (s : State) : (setEdcResult e s).checkFailed = s.checkFailed := rfl
@[simp] theorem setEdcResult_accepted (e : Word) (s : State) : (setEdcResult e s).accepted = s.accepted := rfl
@[simp] theorem setEdcResult_stall (e : Word) (s : State) : (setEdcResult e s).stall = s.stall := rfl

/-! ### tick: the passing of a host step -/

@[simp] theorem tick_buf (s : State) : (tick s).buf = s.buf := rfl
@[simp] theorem tick_tables (s : State) : (tick s).tables = s.tables := rfl
@[simp] theorem tick_tv (s : State) : (tick s).tv = s.tv := rfl
@[simp] theorem tick_busy (s : State) : (tick s).busy = s.busy := rfl
@[simp] theorem tick_done (s : State) : (tick s).done = s.done := rfl
@[simp] theorem tick_fatal (s : State) : (tick s).fatal = s.fatal := rfl
@[simp] theorem tick_err (s : State) : (tick s).err = s.err := rfl
@[simp] theorem tick_pend (s : State) : (tick s).pend = s.pend := rfl
@[simp] theorem tick_lba (s : State) : (tick s).lba = s.lba := rfl
@[simp] theorem tick_dlen (s : State) : (tick s).dlen = s.dlen := rfl
@[simp] theorem tick_edcResult (s : State) : (tick s).edcResult = s.edcResult := rfl
@[simp] theorem tick_faults (s : State) : (tick s).faults = s.faults := rfl
@[simp] theorem tick_host (s : State) : (tick s).host = s.host := rfl
@[simp] theorem tick_reads (s : State) : (tick s).reads = s.reads := rfl
@[simp] theorem tick_checkFailed (s : State) : (tick s).checkFailed = s.checkFailed := rfl
@[simp] theorem tick_accepted (s : State) : (tick s).accepted = s.accepted := rfl
@[simp] theorem tick_stall (s : State) : (tick s).stall = s.stall - 1 := rfl

/-! ### taken: the host took a statement -/

@[simp] theorem taken_buf (s : State) (rest : List HostStmt) : (taken s rest).buf = s.buf := rfl
@[simp] theorem taken_tables (s : State) (rest : List HostStmt) : (taken s rest).tables = s.tables := rfl
@[simp] theorem taken_tv (s : State) (rest : List HostStmt) : (taken s rest).tv = s.tv := rfl
@[simp] theorem taken_busy (s : State) (rest : List HostStmt) : (taken s rest).busy = s.busy := rfl
@[simp] theorem taken_done (s : State) (rest : List HostStmt) : (taken s rest).done = s.done := rfl
@[simp] theorem taken_fatal (s : State) (rest : List HostStmt) : (taken s rest).fatal = s.fatal := rfl
@[simp] theorem taken_err (s : State) (rest : List HostStmt) : (taken s rest).err = s.err := rfl
@[simp] theorem taken_pend (s : State) (rest : List HostStmt) : (taken s rest).pend = s.pend := rfl
@[simp] theorem taken_lba (s : State) (rest : List HostStmt) : (taken s rest).lba = s.lba := rfl
@[simp] theorem taken_dlen (s : State) (rest : List HostStmt) : (taken s rest).dlen = s.dlen := rfl
@[simp] theorem taken_edcResult (s : State) (rest : List HostStmt) : (taken s rest).edcResult = s.edcResult := rfl
@[simp] theorem taken_faults (s : State) (rest : List HostStmt) : (taken s rest).faults = s.faults := rfl
@[simp] theorem taken_host (s : State) (rest : List HostStmt) : (taken s rest).host = rest := rfl
@[simp] theorem taken_reads (s : State) (rest : List HostStmt) : (taken s rest).reads = s.reads := rfl
@[simp] theorem taken_checkFailed (s : State) (rest : List HostStmt) : (taken s rest).checkFailed = s.checkFailed := rfl
@[simp] theorem taken_accepted (s : State) (rest : List HostStmt) : (taken s rest).accepted = s.accepted := rfl
@[simp] theorem taken_stall (s : State) (rest : List HostStmt) : (taken s rest).stall = s.stall - 1 := rfl

/-! ### placeCommand: placing a command for the next step -/

@[simp] theorem placeCommand_buf (w : Word) (s : State) : (placeCommand w s).buf = s.buf := rfl
@[simp] theorem placeCommand_tables (w : Word) (s : State) : (placeCommand w s).tables = s.tables := rfl
@[simp] theorem placeCommand_tv (w : Word) (s : State) : (placeCommand w s).tv = s.tv := rfl
@[simp] theorem placeCommand_busy (w : Word) (s : State) : (placeCommand w s).busy = true := rfl
@[simp] theorem placeCommand_done (w : Word) (s : State) : (placeCommand w s).done = false := rfl
@[simp] theorem placeCommand_fatal (w : Word) (s : State) : (placeCommand w s).fatal = s.fatal := rfl
@[simp] theorem placeCommand_err (w : Word) (s : State) : (placeCommand w s).err = .none := rfl
@[simp] theorem placeCommand_pend (w : Word) (s : State) : (placeCommand w s).pend = some w := rfl
@[simp] theorem placeCommand_lba (w : Word) (s : State) : (placeCommand w s).lba = s.lba := rfl
@[simp] theorem placeCommand_dlen (w : Word) (s : State) : (placeCommand w s).dlen = s.dlen := rfl
@[simp] theorem placeCommand_edcResult (w : Word) (s : State) : (placeCommand w s).edcResult = s.edcResult := rfl
@[simp] theorem placeCommand_faults (w : Word) (s : State) : (placeCommand w s).faults = s.faults := rfl
@[simp] theorem placeCommand_host (w : Word) (s : State) : (placeCommand w s).host = s.host := rfl
@[simp] theorem placeCommand_reads (w : Word) (s : State) : (placeCommand w s).reads = s.reads := rfl
@[simp] theorem placeCommand_checkFailed (w : Word) (s : State) : (placeCommand w s).checkFailed = s.checkFailed := rfl
@[simp] theorem placeCommand_accepted (w : Word) (s : State) : (placeCommand w s).accepted = s.accepted := rfl
@[simp] theorem placeCommand_stall (w : Word) (s : State) : (placeCommand w s).stall = 0 := rfl

/-! ### resetBlock: reset -/

@[simp] theorem resetBlock_buf (s : State) : (resetBlock s).buf = State.reset.buf := rfl
@[simp] theorem resetBlock_tables (s : State) : (resetBlock s).tables = State.reset.tables := rfl
@[simp] theorem resetBlock_tv (s : State) : (resetBlock s).tv = State.reset.tv := rfl
@[simp] theorem resetBlock_busy (s : State) : (resetBlock s).busy = State.reset.busy := rfl
@[simp] theorem resetBlock_done (s : State) : (resetBlock s).done = State.reset.done := rfl
@[simp] theorem resetBlock_fatal (s : State) : (resetBlock s).fatal = State.reset.fatal := rfl
@[simp] theorem resetBlock_err (s : State) : (resetBlock s).err = State.reset.err := rfl
@[simp] theorem resetBlock_pend (s : State) : (resetBlock s).pend = State.reset.pend := rfl
@[simp] theorem resetBlock_lba (s : State) : (resetBlock s).lba = State.reset.lba := rfl
@[simp] theorem resetBlock_dlen (s : State) : (resetBlock s).dlen = State.reset.dlen := rfl
@[simp] theorem resetBlock_edcResult (s : State) : (resetBlock s).edcResult = State.reset.edcResult := rfl
@[simp] theorem resetBlock_faults (s : State) : (resetBlock s).faults = State.reset.faults := rfl
@[simp] theorem resetBlock_host (s : State) : (resetBlock s).host = s.host := rfl
@[simp] theorem resetBlock_reads (s : State) : (resetBlock s).reads = s.reads := rfl
@[simp] theorem resetBlock_checkFailed (s : State) : (resetBlock s).checkFailed = s.checkFailed := rfl
@[simp] theorem resetBlock_accepted (s : State) : (resetBlock s).accepted = s.accepted := rfl
@[simp] theorem resetBlock_stall (s : State) : (resetBlock s).stall = State.reset.stall := rfl

/-! ### recordFault: a model fault -/

@[simp] theorem recordFault_buf (f : Fault) (s : State) : (recordFault f s).buf = s.buf := rfl
@[simp] theorem recordFault_tables (f : Fault) (s : State) : (recordFault f s).tables = s.tables := rfl
@[simp] theorem recordFault_tv (f : Fault) (s : State) : (recordFault f s).tv = s.tv := rfl
@[simp] theorem recordFault_busy (f : Fault) (s : State) : (recordFault f s).busy = s.busy := rfl
@[simp] theorem recordFault_done (f : Fault) (s : State) : (recordFault f s).done = s.done := rfl
@[simp] theorem recordFault_fatal (f : Fault) (s : State) : (recordFault f s).fatal = s.fatal := rfl
@[simp] theorem recordFault_err (f : Fault) (s : State) : (recordFault f s).err = s.err := rfl
@[simp] theorem recordFault_pend (f : Fault) (s : State) : (recordFault f s).pend = s.pend := rfl
@[simp] theorem recordFault_lba (f : Fault) (s : State) : (recordFault f s).lba = s.lba := rfl
@[simp] theorem recordFault_dlen (f : Fault) (s : State) : (recordFault f s).dlen = s.dlen := rfl
@[simp] theorem recordFault_edcResult (f : Fault) (s : State) : (recordFault f s).edcResult = s.edcResult := rfl
@[simp] theorem recordFault_faults (f : Fault) (s : State) : (recordFault f s).faults = s.faults ++ [f] := rfl
@[simp] theorem recordFault_host (f : Fault) (s : State) : (recordFault f s).host = s.host := rfl
@[simp] theorem recordFault_reads (f : Fault) (s : State) : (recordFault f s).reads = s.reads := rfl
@[simp] theorem recordFault_checkFailed (f : Fault) (s : State) : (recordFault f s).checkFailed = s.checkFailed := rfl
@[simp] theorem recordFault_accepted (f : Fault) (s : State) : (recordFault f s).accepted = s.accepted := rfl
@[simp] theorem recordFault_stall (f : Fault) (s : State) : (recordFault f s).stall = s.stall := rfl

/-! ### Completion over the other updates -/

/-- A second completion update replaces the first. -/
@[simp] theorem complete_complete (e e' : Err) (s : State) : complete e (complete e' s) = complete e s := rfl

/-- Completion and a write of BUF touch different fields. -/
theorem writeBuf_complete (e : Err) (s : State) (a : Nat) (bs : List Byte) :
    writeBuf (complete e s) a bs = complete e (writeBuf s a bs) := rfl

theorem setTables_complete (t : Tables) (e : Err) (s : State) : setTables t (complete e s) = complete e (setTables t s) := rfl

theorem setEdcResult_complete (w : Word) (e : Err) (s : State) :
    setEdcResult w (complete e s) = complete e (setEdcResult w s) := rfl

end Sys2Proof.Machine
end

