-- ==== Sys2Proof/Laws/Ops.lean ====
section
/-! SUPPORT. What each shared operation can do, said once: reading a cell, reading a range, the table guard, and the end of
a command. -/

namespace Sys2Proof.Machine

@[simp] theorem valueAt_some {α : Type} (loc : Loc) (v : α) : valueAt loc (some v) = .ok v := rfl

@[simp] theorem valueAt_none {α : Type} (loc : Loc) :
    valueAt loc (none : Option α) = .error (.fault (.unwrittenRead loc)) := rfl

@[simp] theorem eff_bind_ok {α β : Type} (a : α) (f : α → Eff β) : (Except.ok a : Eff α) >>= f = f a := rfl

@[simp] theorem eff_bind_error {α β : Type} (e : Stop) (f : α → Eff β) : (Except.error e : Eff α) >>= f = .error e := rfl

@[simp] theorem eff_pure {α : Type} (a : α) : (pure a : Eff α) = .ok a := rfl

/-- A bind that succeeded had both parts succeed. -/
theorem eff_bind_eq_ok {α β : Type} {x : Eff α} {f : α → Eff β} {b : β} :
    x >>= f = .ok b ↔ ∃ a, x = .ok a ∧ f a = .ok b := by
  cases x <;> simp

@[simp] theorem finish_ok (s s' : State) : finish s (.ok s') = .next (complete .none s') := rfl

@[simp] theorem finish_raised {e : Err} (s : State) (h : e ≠ .invariant) :
    finish s (.error (.raised e)) = .next (complete e s) := by
  cases e <;> simp_all [finish, raiseErr]

@[simp] theorem finish_fault (s : State) (f : Fault) : finish s (.error (.fault f)) = .fault f := rfl

/-- How a completion step that goes on ends: its effects applied, or an error with none of them. -/
theorem finish_eq_next {s t : State} {r : Eff State} (h : finish s r = .next t) :
    (∃ s', r = .ok s' ∧ t = complete .none s') ∨ ∃ e, r = .error (.raised e) ∧ t = raiseErr e s := by
  rcases r with (e | f) | s' <;> simp_all [finish, eq_comm]

/-- A completion step that ends with a model fault met it in its effect. -/
theorem finish_eq_fault {s : State} {r : Eff State} {f : Fault} (h : finish s r = .fault f) : r = .error (.fault f) := by
  rcases r with (e | f') | s' <;> simp_all [finish]

theorem readBuf_of_some {s : State} {i : Nat} {b : Byte} (h : s.buf.read i = some b) : readBuf s i = .ok b := by
  simp [readBuf, h]

theorem mapM_eff_ok {α β : Type} (f : α → Eff β) (g : α → β) (l : List α) (h : ∀ x ∈ l, f x = .ok (g x)) :
    l.mapM f = .ok (l.map g) := by
  induction l with
  | nil => rfl
  | cons x l ih => simp [h x (by simp), ih fun y hy => h y (by simp [hy])]

/-- A range whose every cell holds a value reads as those values. -/
theorem readRange_of_read {s : State} {off len : Nat} {d : Nat → Byte}
    (h : ∀ t < len, s.buf.read (off + t) = some (d (off + t))) :
    readRange s off len = .ok (bytesFrom d off len) :=
  mapM_eff_ok _ _ _ fun t ht => readBuf_of_some (h t (List.mem_range.1 ht))

/-- A range with an unwritten cell is `UnwrittenRead` of the first such cell. -/
theorem readRange_of_none {s : State} {off len k : Nat} (hk : k < len) (hn : s.buf.read (off + k) = none)
    (h : ∀ t < k, (s.buf.read (off + t)).isSome) :
    readRange s off len = .error (.fault (.unwrittenRead (.buf (off + k)))) := by
  have key : ∀ l : List Nat, ∀ l', (∀ t ∈ l, (s.buf.read (off + t)).isSome) →
      (l ++ k :: l').mapM (fun t => readBuf s (off + t)) = .error (.fault (.unwrittenRead (.buf (off + k)))) := by
    intro l l' hl
    induction l with
    | nil => simp [readBuf, hn]
    | cons x l ih =>
      obtain ⟨b, hb⟩ := Option.isSome_iff_exists.1 (hl x (by simp))
      rw [List.cons_append, List.mapM_cons, ih fun t ht => hl t (by simp [ht])]
      simp [readBuf, hb]
  have hr : List.range len = List.range k ++ k :: List.range' (k + 1) (len - (k + 1)) := by
    have happ := List.range'_append_1 (s := 0) (m := k) (n := len - (k + 1) + 1)
    rw [Nat.zero_add] at happ
    rw [List.range_eq_range', List.range_eq_range', ← List.range'_succ, happ]
    congr 1; omega
  rw [readRange, hr]
  exact key _ _ fun t ht => h t (List.mem_range.1 ht)

@[simp] theorem checkRange_ok {off len : Nat} (h : off + len ≤ 2352) : checkRange off len = .ok () := by
  simp [checkRange, Config.sectorBytes, h]

@[simp] theorem checkLba_ok {l : Word} (h : l.toNat ≤ 449849) : checkLba l = .ok () :=
  if_pos (BitVec.le_def.2 h)

@[simp] theorem checkRange_bad {off len : Nat} (h : 2352 < off + len) :
    checkRange off len = .error (.raised .range) := by
  rw [checkRange, Config.sectorBytes, if_neg (by omega)]

end Sys2Proof.Machine
end

