-- ==== Sys2Proof/Laws/Tables.lean ====
section
/-! SUPPORT. The table build succeeds, what its cells hold, and what the table guard does. -/

namespace Sys2Proof.Machine

/-- The coefficient vector V1, as spec/40_gf_tables.md R99 lists it. -/
theorem vectorV1_eq : vectorV1 buildGf = some
    [0xAE#8, 0xD9#8, 0x6C#8, 0xB8#8, 0xD2#8, 0xE7#8, 0x73#8, 0x39#8, 0x1C#8, 0x80#8, 0xCE#8, 0xE9#8, 0x74#8, 0xB4#8, 0xD4#8,
     0xE4#8, 0xFC#8, 0xF0#8, 0xF6#8, 0xF5#8, 0x7A#8, 0xB3#8, 0x59#8, 0x2C#8, 0x98#8, 0xC2#8, 0xEF#8, 0x77#8, 0x3B#8, 0x1D#8,
     0x0E#8, 0x89#8, 0x44#8, 0xAC#8, 0xD8#8, 0xE2#8, 0xFF#8, 0x7F#8, 0x3F#8, 0x1F#8, 0x0F#8, 0x07#8, 0x03#8, 0x01#8, 0x00#8] := by
  decide +kernel

/-- The coefficient vector V0, as R99 lists it. -/
theorem vectorV0_eq : vectorV0 buildGf = some
    [0xAF#8, 0xD8#8, 0x6D#8, 0xB9#8, 0xD3#8, 0xE6#8, 0x72#8, 0x38#8, 0x1D#8, 0x81#8, 0xCF#8, 0xE8#8, 0x75#8, 0xB5#8, 0xD5#8,
     0xE5#8, 0xFD#8, 0xF1#8, 0xF7#8, 0xF4#8, 0x7B#8, 0xB2#8, 0x58#8, 0x2D#8, 0x99#8, 0xC3#8, 0xEE#8, 0x76#8, 0x3A#8, 0x1C#8,
     0x0F#8, 0x88#8, 0x45#8, 0xAD#8, 0xD9#8, 0xE3#8, 0xFE#8, 0x7E#8, 0x3E#8, 0x1E#8, 0x0E#8, 0x06#8, 0x02#8, 0x00#8, 0x01#8] := by
  decide +kernel

/-- The build gives tables whose coefficients are V1 and V0. -/
theorem buildTables_eq_some :
    ∃ v1 v0, vectorV1 buildGf = some v1 ∧ vectorV0 buildGf = some v0 ∧
      buildTables = some
        { log := buildGf.log.map some, ilog := buildGf.ilog.map some, pqt := buildPqt v1 v0, crc := buildCrc } :=
  ⟨_, _, vectorV1_eq, vectorV0_eq, by simp [buildTables, vectorV1_eq, vectorV0_eq]⟩

/-- Every CRC_T cell of the built tables holds its entry. -/
theorem crcAt_of_build {t : Tables} (h : buildTables = some t) (n : Byte) : t.crcAt n.toNat = some (crcEntry n) := by
  obtain ⟨v1, v0, -, -, hb⟩ := buildTables_eq_some
  obtain rfl := Option.some.inj (h.symm.trans hb)
  simp [Tables.crcAt, buildCrc, n.isLt]

/-- Every PQ_T cell of the built tables holds its two products. -/
theorem pqtAt_of_build {t : Tables} (h : buildTables = some t) {r : Nat} (hr : r < 43) (v : Byte) :
    t.pqtAt r v.toNat = some (pqtEntry (v1At r) (v0At r) v) := by
  obtain ⟨v1, v0, h1, h0, hb⟩ := buildTables_eq_some
  obtain rfl := Option.some.inj (h.symm.trans hb)
  simp [Tables.pqtAt, buildPqt, hr, v.isLt, v1At, v0At, h1, h0]

/-- Whatever TV is, the guard leaves the built tables and TV = 1, and changes nothing else (R103). -/
theorem ensureTables_of_ok {s : State} (h : TablesOk s) :
    ∃ t, buildTables = some t ∧ ensureTables s = .ok (setTables t s) := by
  obtain ⟨v1, v0, -, -, hb⟩ := buildTables_eq_some
  by_cases htv : s.tv = true
  · refine ⟨s.tables, by simpa [TablesOk, htv] using h, ?_⟩
    rw [ensureTables, if_pos htv, setTables, ← htv]
  · exact ⟨_, hb, by simp [ensureTables, htv, hb]⟩

/-- What the guard does in any state: nothing while TV = 1, else the build (R102, R103). -/
theorem ensureTables_cases {s s' : State} (h : ensureTables s = .ok s') :
    (s.tv = true ∧ s' = s) ∨ (s.tv = false ∧ ∃ t, buildTables = some t ∧ s' = setTables t s) := by
  unfold ensureTables at h
  split at h
  · next htv => exact .inl ⟨htv, (Except.ok.inj h).symm⟩
  · next htv =>
    split at h
    · next t ht => exact .inr ⟨by simpa using htv, t, ht, (Except.ok.inj h).symm⟩
    · simp at h

/-- The guard never stops: the division check cannot fail (R104). -/
theorem ensureTables_ok (s : State) : ∃ s', ensureTables s = .ok s' := by
  obtain ⟨v1, v0, -, -, hb⟩ := buildTables_eq_some
  unfold ensureTables
  split
  · exact ⟨_, rfl⟩
  · rw [hb]; exact ⟨_, rfl⟩

/-- With the tables built, `calc_edc` reads the entries of R115. -/
theorem calcEdc_of_build {s : State} (h : buildTables = some s.tables) (bs : List Byte) :
    calcEdc s bs = .ok (edcOf bs) := by
  suffices key : ∀ acc, bs.foldlM (edcStep s) acc = .ok (edcFrom acc bs) from key _
  induction bs with
  | nil => intro acc; rfl
  | cons b bs ih =>
    intro acc
    simp [edcStep, readCrc, crcAt_of_build h, ih, edcFrom]

end Sys2Proof.Machine
end

