-- ==== Sys2Proof/Laws/Parity.lean ====
section
/-! SUPPORT. What one pair of a parity pass, and a whole pass, does to BUF. -/

namespace Sys2Proof.Machine

/-! ### Lanes -/

@[simp] theorem highLane_xor (x y : Half) : highLane (x ^^^ y) = highLane x ^^^ highLane y := by
  ext i hi
  simp [highLane, halfByte]

@[simp] theorem lowLane_xor (x y : Half) : lowLane (x ^^^ y) = lowLane x ^^^ lowLane y := by
  ext i hi
  simp [lowLane, halfByte]

/-- The high lane of an entry is the V1 product (R130). -/
@[simp] theorem highLane_pqtEntry (c1 c0 v : Byte) : highLane (pqtEntry c1 c0 v) = gfMul v c1 := by
  rw [highLane, halfByte, pqtEntry, BitVec.extractLsb'_append_eq_of_le (by omega)]
  simp

/-- The low lane of an entry is the V0 product (R130). -/
@[simp] theorem lowLane_pqtEntry (c1 c0 v : Byte) : lowLane (pqtEntry c1 c0 v) = gfMul v c0 := by
  rw [lowLane, halfByte, pqtEntry, BitVec.extractLsb'_append_eq_of_add_le (by omega)]
  simp

@[simp] theorem highLane_zero : highLane 0#16 = 0#8 := rfl

@[simp] theorem lowLane_zero : lowLane 0#16 = 0#8 := rfl

/-! ### One pair -/

/-- The accumulator after steps whose data is `d`. -/
def pairSum (d : Nat → Byte) (acc : Half × Half) (steps : List (Nat × Nat)) : Half × Half :=
  steps.foldl
    (fun acc ro => (acc.1 ^^^ pqtEntry (v1At ro.1) (v0At ro.1) (d ro.2),
      acc.2 ^^^ pqtEntry (v1At ro.1) (v0At ro.1) (d (ro.2 + 1)))) acc

/-- With the tables built and every cell of the traversal written, the accumulators are the sum of the entries. -/
theorem accumulate_of_read {s : State} {d : Nat → Byte} {steps : List (Nat × Nat)} (hb : buildTables = some s.tables)
    (h : ∀ ro ∈ steps, ro.1 < 43 ∧ s.buf.read ro.2 = some (d ro.2) ∧ s.buf.read (ro.2 + 1) = some (d (ro.2 + 1))) :
    accumulate s steps = .ok (pairSum d (0#16, 0#16) steps) := by
  suffices key : ∀ acc, steps.foldlM (parityStep s) acc = .ok (pairSum d acc steps) from key _
  induction steps with
  | nil => intro acc; rfl
  | cons ro steps ih =>
    intro acc
    obtain ⟨hr, hx, hy⟩ := h ro (by simp)
    simp [parityStep, readBuf, readPqt, hx, hy, pqtAt_of_build hb hr, ih fun ro hro => h ro (by simp [hro]), pairSum]

theorem xorSum_congr {n : Nat} {f g : Nat → Byte} (h : ∀ k < n, f k = g k) : xorSum n f = xorSum n g := by
  induction n with
  | zero => rfl
  | succ n ih => simp only [xorSum, h n (by omega), ih fun k hk => h k (by omega)]

/-- The four lanes of a traversal given as row and offset of step k. -/
theorem pairSum_lanes (d : Nat → Byte) (row off : Nat → Nat) (n : Nat) :
    ∀ ab, pairSum d (0#16, 0#16) ((List.range n).map fun k => (row k, off k)) = ab →
    highLane ab.1 = xorSum n (fun k => gfMul (d (off k)) (v1At (row k))) ∧
      highLane ab.2 = xorSum n (fun k => gfMul (d (off k + 1)) (v1At (row k))) ∧
      lowLane ab.1 = xorSum n (fun k => gfMul (d (off k)) (v0At (row k))) ∧
      lowLane ab.2 = xorSum n (fun k => gfMul (d (off k + 1)) (v0At (row k))) := by
  induction n with
  | zero => rintro _ rfl; simp [pairSum, xorSum]
  | succ n ih =>
    rintro _ rfl
    obtain ⟨h1, h2, h3, h4⟩ := ih _ rfl
    simp only [pairSum] at h1 h2 h3 h4
    simp only [List.range_succ, List.map_append, List.map_cons, List.map_nil, pairSum, List.foldl_append, List.foldl_cons,
      List.foldl_nil, xorSum, highLane_xor, lowLane_xor, highLane_pqtEntry, lowLane_pqtEntry, h1, h2, h3, h4, and_self]

/-- Where the four bytes of pair `i` land. -/
theorem read_placeParity (base half i : Nat) (ab : Half × Half) (s : State) (hhalf : 2 * i + 2 ≤ half) (a : Nat) :
    (placeParity base half i ab s).buf.read a =
      if a = base + 2 * i then some (highLane ab.1)
      else if a = base + 2 * i + 1 then some (highLane ab.2)
      else if a = base + half + 2 * i then some (lowLane ab.1)
      else if a = base + half + 2 * i + 1 then some (lowLane ab.2)
      else s.buf.read a := by
  simp only [placeParity, writeBuf_buf, Memory.writeBytes, Memory.read_write]
  split_ifs <;> first | rfl | omega

/-- A pair changes nothing but BUF. -/
theorem placeParity_eq (base half i : Nat) (ab : Half × Half) (s : State) :
    placeParity base half i ab s = { s with buf := (placeParity base half i ab s).buf } := rfl

theorem placeParity_wf {base half i : Nat} {ab : Half × Half} {s : State} (hs : s.buf.wf) (hi : 2 * i + 2 ≤ half)
    (hb : base + 2 * half ≤ 2352) : (placeParity base half i ab s).buf.wf :=
  Memory.writeBytes_wf (Memory.writeBytes_wf hs (by simp only [List.length_cons, List.length_nil, Config.sectorBytes]; omega))
    (by simp only [List.length_cons, List.length_nil, Config.sectorBytes]; omega)

/-! ### A whole pass -/

/-- A pass over `n` pairs that reads only below its output region: it succeeds, writes each pair's four lanes, and
changes nothing else. -/
theorem parityPass {s : State} {d : Nat → Byte} {base half : Nat} (row : Nat → Nat) (off : Nat → Nat → Nat) (m : Nat)
    (hb : buildTables = some s.tables) (hd : Holds s 12 (base - 1) d) (n : Nat) (hn : 2 * n ≤ half)
    (hstep : ∀ i < n, ∀ k < m, row k < 43 ∧ 12 ≤ off i k ∧ off i k + 1 < base) :
    ∃ t, (List.range n).foldlM (parityPair (fun i => (List.range m).map fun k => (row k, off i k)) base half) s = .ok t ∧
      t = { s with buf := t.buf } ∧
      (∀ a, a < base ∨ base + 2 * half ≤ a → t.buf.read a = s.buf.read a) ∧
      (∀ i < n, ∀ h < 2,
        t.buf.read (base + 2 * i + h) = some (xorSum m fun k => gfMul (d (off i k + h)) (v1At (row k))) ∧
        t.buf.read (base + half + 2 * i + h) = some (xorSum m fun k => gfMul (d (off i k + h)) (v0At (row k)))) := by
  induction n with
  | zero => exact ⟨s, rfl, rfl, fun _ _ => rfl, by simp⟩
  | succ n ih =>
    obtain ⟨t, ht, hst, hout, hin⟩ := ih (by omega) fun i hi k hk => hstep i (by omega) k hk
    have htt : t.tables = s.tables := by rw [hst]
    have hacc : accumulate t ((List.range m).map fun k => (row k, off n k)) =
        .ok (pairSum d (0#16, 0#16) ((List.range m).map fun k => (row k, off n k))) := by
      refine accumulate_of_read (htt ▸ hb) fun ro hro => ?_
      obtain ⟨k, hk, rfl⟩ := List.mem_map.1 hro
      obtain ⟨h1, h2, h3⟩ := hstep n (by omega) k (List.mem_range.1 hk)
      refine ⟨h1, ?_, ?_⟩
      · exact (hout _ (by left; show off n k < base; omega)).trans (hd _ (by show 12 ≤ off n k; omega) (by show off n k ≤ _; omega))
      · exact (hout _ (by left; show off n k + 1 < base; omega)).trans (hd _ (by show 12 ≤ off n k + 1; omega) (by show off n k + 1 ≤ _; omega))
    generalize hab : pairSum d (0#16, 0#16) ((List.range m).map fun k => (row k, off n k)) = ab at hacc
    obtain ⟨l1, l2, l3, l4⟩ := pairSum_lanes d row (off n) m ab hab
    refine ⟨placeParity base half n ab t, ?_, ?_, ?_, ?_⟩
    · simp [List.range_succ, List.foldlM_append, ht, parityPair, hacc]
    · rw [placeParity_eq, hst]
    · intro a ha
      rw [read_placeParity _ _ _ _ _ (by omega), if_neg (by omega), if_neg (by omega), if_neg (by omega), if_neg (by omega)]
      exact hout a ha
    · intro i hi h hh
      simp only [read_placeParity _ _ _ _ _ (show 2 * n + 2 ≤ half by omega)]
      obtain rfl | hin' : i = n ∨ i < n := by omega
      · obtain rfl | rfl : h = 0 ∨ h = 1 := by omega
        · refine ⟨?_, ?_⟩
          · rw [if_pos (by omega), l1]; rfl
          · rw [if_neg (by omega), if_neg (by omega), if_pos (by omega), l3]; rfl
        · refine ⟨?_, ?_⟩
          · rw [if_neg (by omega), if_pos (by omega), l2]
          · rw [if_neg (by omega), if_neg (by omega), if_neg (by omega), if_pos (by omega), l4]
      · obtain ⟨r1, r2⟩ := hin i hin' h hh
        refine ⟨?_, ?_⟩
        · rw [if_neg (by omega), if_neg (by omega), if_neg (by omega), if_neg (by omega), r1]
        · rw [if_neg (by omega), if_neg (by omega), if_neg (by omega), if_neg (by omega), r2]

/-! ### The Q traversal in closed form -/

/-- The Q walk is row k at the closed-form offset (R136), for every diagonal pair. -/
theorem qSteps_eq {i : Nat} (hi : i < 26) : qSteps i = (List.range 43).map fun k => (k, qOffset i k) := by
  have key : ∀ i : Fin 26, qSteps i.val = (List.range 43).map fun k => (k, qOffset i.val k) := by decide +kernel
  exact key ⟨i, hi⟩

theorem foldlM_eff_congr {α β : Type} {f g : β → α → Eff β} {l : List α} (h : ∀ a ∈ l, ∀ b, f b a = g b a) (b : β) :
    l.foldlM f b = l.foldlM g b := by
  induction l generalizing b with
  | nil => rfl
  | cons a l ih =>
    rw [List.foldlM_cons, List.foldlM_cons, h a (by simp)]
    congr 1
    funext b
    exact ih (fun a ha => h a (by simp [ha])) b

/-- QPAR's pass in the closed form `parityPass` speaks of. -/
theorem foldlM_qSteps (s : State) :
    (List.range 26).foldlM (parityPair qSteps 2248 52) s =
      (List.range 26).foldlM (parityPair (fun i => (List.range 43).map fun k => (k, qOffset i k)) 2248 52) s :=
  foldlM_eff_congr (fun i hi s => by rw [parityPair, parityPair, qSteps_eq (List.mem_range.1 hi)]) s

end Sys2Proof.Machine
end

