-- ==== Sys2Proof/Laws/Effects.lean ====
section
/-! SUPPORT. What the effect of a command can change (spec/20_memory.md R68), and what one step of the machine can do: the
inversion lemmas every invariant is derived from. -/

namespace Sys2Proof.Machine

/-- What separates `t` from `s` after an effect that writes only the BUF cells `w`: the rest of the state is the same,
BUF keeps its form, and the tables are untouched or have just been built (R102, R103). -/
structure EffFrame (w : Nat → Bool) (s t : State) : Prop where
  rest : t = { s with buf := t.buf, tables := t.tables, tv := t.tv, edcResult := t.edcResult }
  out : ∀ a, w a = false → t.buf.read a = s.buf.read a
  wf : s.buf.wf → t.buf.wf
  guard : (t.tv = s.tv ∧ t.tables = s.tables) ∨ (s.tv = false ∧ t.tv = true ∧ buildTables = some t.tables)

theorem EffFrame.refl (w : Nat → Bool) (s : State) : EffFrame w s s :=
  ⟨rfl, fun _ _ => rfl, id, .inl ⟨rfl, rfl⟩⟩

theorem EffFrame.trans {w : Nat → Bool} {s t u : State} (h : EffFrame w s t) (h' : EffFrame w t u) : EffFrame w s u := by
  refine ⟨?_, fun a ha => (h'.out a ha).trans (h.out a ha), fun hs => h'.wf (h.wf hs), ?_⟩
  · have h1 := h'.rest
    rw [h.rest] at h1
    exact h1
  · rcases h.guard with ⟨g1, g2⟩ | ⟨g1, g2, g3⟩ <;> rcases h'.guard with ⟨k1, k2⟩ | ⟨k1, k2, k3⟩
    · exact .inl ⟨k1.trans g1, k2.trans g2⟩
    · exact .inr ⟨g1 ▸ k1, k2, k3⟩
    · exact .inr ⟨g1, k1.trans g2, k2 ▸ g3⟩
    · simp [g2] at k1

theorem EffFrame.mono {w w' : Nat → Bool} {s t : State} (h : EffFrame w s t) (hw : ∀ a, w' a = false → w a = false) :
    EffFrame w' s t :=
  ⟨h.rest, fun a ha => h.out a (hw a ha), h.wf, h.guard⟩

/-- The table guard survives an effect. -/
theorem EffFrame.tablesOk {w : Nat → Bool} {s t : State} (h : EffFrame w s t) (hs : TablesOk s) : TablesOk t := by
  rcases h.guard with ⟨g1, g2⟩ | ⟨-, g2, g3⟩
  · simpa [TablesOk, g1, g2] using hs
  · simp [TablesOk, g2, g3]

theorem ensureTables_frame {s t : State} (w : Nat → Bool) (h : ensureTables s = .ok t) : EffFrame w s t := by
  rcases ensureTables_cases h with ⟨-, rfl⟩ | ⟨htv, tb, htb, rfl⟩
  · exact .refl w _
  · exact ⟨rfl, fun _ _ => rfl, id, .inr ⟨htv, rfl, htb⟩⟩

/-- A write of BUF cells inside `w`. -/
theorem writeBuf_frame {w : Nat → Bool} (s : State) {a : Nat} {bs : List Byte}
    (hw : ∀ x, a ≤ x → x < a + bs.length → w x = true) (hb : a + bs.length ≤ 2352) : EffFrame w s (writeBuf s a bs) := by
  refine ⟨rfl, fun x hx => Memory.read_writeBytes_outside _ ?_, fun hs => Memory.writeBytes_wf hs hb, .inl ⟨rfl, rfl⟩⟩
  by_contra hc
  have := hw x (by omega) (by omega)
  simp [hx] at this

theorem setEdcResult_frame (w : Nat → Bool) (s : State) (e : Word) : EffFrame w s (setEdcResult e s) :=
  ⟨rfl, fun _ _ => rfl, id, .inl ⟨rfl, rfl⟩⟩

theorem edcEffect_frame {off len : Nat} {s t : State} (h : edcEffect off len s = .ok t) :
    EffFrame (writesCell (.edc off len)) s t := by
  obtain ⟨_, _, h⟩ := eff_bind_eq_ok.1 h
  obtain ⟨u, hu, h⟩ := eff_bind_eq_ok.1 h
  obtain ⟨_, _, h⟩ := eff_bind_eq_ok.1 h
  obtain ⟨e, _, h⟩ := eff_bind_eq_ok.1 h
  obtain rfl := Except.ok.inj h
  exact (ensureTables_frame _ hu).trans (setEdcResult_frame _ u _)

theorem edcwEffect_frame {s t : State} (h : edcwEffect s = .ok t) : EffFrame (writesCell .edcw) s t := by
  obtain ⟨u, hu, h⟩ := eff_bind_eq_ok.1 h
  obtain ⟨_, _, h⟩ := eff_bind_eq_ok.1 h
  obtain ⟨e, _, h⟩ := eff_bind_eq_ok.1 h
  obtain rfl := Except.ok.inj h
  refine (ensureTables_frame _ hu).trans ((writeBuf_frame u (fun x h1 h2 => ?_) (by simp)).trans (setEdcResult_frame _ _ _))
  simp only [List.length_cons, List.length_nil] at h2
  exact decide_eq_true (by omega)

theorem parityPair_frame {w : Nat → Bool} {steps : Nat → List (Nat × Nat)} {base half i : Nat} {s t : State}
    (hw : ∀ x, base ≤ x → x < base + 2 * half → w x = true) (hb : base + 2 * half ≤ 2352) (hi : 2 * i + 2 ≤ half)
    (h : parityPair steps base half s i = .ok t) : EffFrame w s t := by
  obtain ⟨ab, _, h⟩ := eff_bind_eq_ok.1 h
  obtain rfl := Except.ok.inj h
  refine (writeBuf_frame s (fun x h1 h2 => hw x ?_ ?_) ?_).trans (writeBuf_frame _ (fun x h1 h2 => hw x ?_ ?_) ?_) <;>
    simp only [List.length_cons, List.length_nil] at * <;> omega

theorem parityPass_frame {w : Nat → Bool} {steps : Nat → List (Nat × Nat)} {base half : Nat} {s t : State}
    (hw : ∀ x, base ≤ x → x < base + 2 * half → w x = true) (hb : base + 2 * half ≤ 2352) {n : Nat} (hn : 2 * n ≤ half)
    (h : (List.range n).foldlM (parityPair steps base half) s = .ok t) : EffFrame w s t := by
  induction n generalizing t with
  | zero => obtain rfl := Except.ok.inj h; exact .refl w _
  | succ n ih =>
    rw [List.range_succ, List.foldlM_append] at h
    obtain ⟨u, hu, h⟩ := eff_bind_eq_ok.1 h
    obtain ⟨v, hv, h⟩ := eff_bind_eq_ok.1 h
    obtain rfl := Except.ok.inj h
    exact (ih (by omega) hu).trans (parityPair_frame hw hb (by omega) hv)

theorem pparEffect_frame {s t : State} (h : pparEffect s = .ok t) : EffFrame (writesCell .ppar) s t := by
  obtain ⟨u, hu, h⟩ := eff_bind_eq_ok.1 h
  exact (ensureTables_frame _ hu).trans
    (parityPass_frame (fun x h1 h2 => decide_eq_true (by omega)) (by omega) (by omega) h)

theorem qparEffect_frame {s t : State} (h : qparEffect s = .ok t) : EffFrame (writesCell .qpar) s t := by
  obtain ⟨u, hu, h⟩ := eff_bind_eq_ok.1 h
  exact (ensureTables_frame _ hu).trans
    (parityPass_frame (fun x h1 h2 => decide_eq_true (by omega)) (by omega) (by omega) h)

theorem length_headerBytes (l : Nat) : (headerBytes l).length = 4 := rfl

theorem writeHeader_frame (l : Nat) (s : State) : EffFrame (writesCell .hdr) s (writeHeader l s) := by
  refine (writeBuf_frame s (fun x h1 h2 => ?_) ?_).trans (writeBuf_frame _ (fun x h1 h2 => ?_) ?_)
  · rw [List.length_append, length_headerBytes] at h2
    exact decide_eq_true (by simp only [Config.sync, List.length_cons, List.length_nil] at h2; omega)
  · rw [List.length_append, length_headerBytes]; simp [Config.sync]
  · rw [List.length_replicate] at h2
    exact decide_eq_true (by omega)
  · rw [List.length_replicate]

theorem hdrEffect_of_lba {s : State} {l : Word} (h : s.lba = some l) (hl : l.toNat ≤ 449849) :
    hdrEffect s = .ok (writeHeader l.toNat s) := by
  rw [hdrEffect, readLba, h, valueAt_some, eff_bind_ok, checkLba_ok hl, eff_bind_ok, eff_pure]

theorem writeHeader_setTables (l : Nat) (t : Tables) (s : State) :
    writeHeader l (setTables t s) = setTables t (writeHeader l s) := by
  simp only [writeHeader, writeBuf, setTables]

theorem hdrEffect_frame {s t : State} (h : hdrEffect s = .ok t) : EffFrame (writesCell .hdr) s t := by
  obtain ⟨l, _, h⟩ := eff_bind_eq_ok.1 h
  obtain ⟨_, _, h⟩ := eff_bind_eq_ok.1 h
  obtain rfl := Except.ok.inj h
  exact writeHeader_frame _ s

theorem encodeEffect_frame {s t : State} (h : encodeEffect s = .ok t) : EffFrame (writesCell .encode) s t := by
  obtain ⟨_, _, h⟩ := eff_bind_eq_ok.1 h
  obtain ⟨_, _, h⟩ := eff_bind_eq_ok.1 h
  obtain ⟨_, _, h⟩ := eff_bind_eq_ok.1 h
  obtain ⟨_, _, h⟩ := eff_bind_eq_ok.1 h
  obtain ⟨u, hu, h⟩ := eff_bind_eq_ok.1 h
  obtain ⟨v, hv, h⟩ := eff_bind_eq_ok.1 h
  obtain ⟨x, hx, h⟩ := eff_bind_eq_ok.1 h
  obtain ⟨y, hy, h⟩ := eff_bind_eq_ok.1 h
  have sub : ∀ i : Instr, i = .edcw ∨ i = .ppar ∨ i = .qpar → ∀ a, writesCell .encode a = false → writesCell i a = false := by
    intro i hi a ha
    simp only [writesCell, decide_eq_false_iff_not] at ha
    rcases hi with rfl | rfl | rfl <;> exact decide_eq_false (by omega)
  exact (ensureTables_frame _ hu).trans ((hdrEffect_frame hv).mono (fun a ha => ha) |>.trans
    ((edcwEffect_frame hx).mono (sub _ (by simp)) |>.trans
      ((pparEffect_frame hy).mono (sub _ (by simp)) |>.trans ((qparEffect_frame h).mono (sub _ (by simp))))))

/-- The effect of each command. -/
def effectOf : Instr → State → Eff State
  | .init => ensureTables
  | .edc off len => edcEffect off len
  | .edcw => edcwEffect
  | .ppar => pparEffect
  | .qpar => qparEffect
  | .hdr => hdrEffect
  | .encode => encodeEffect

/-- Every command is its effect, then the end of the completion step (R42). -/
theorem exec_eq_finish (i : Instr) (s : State) : exec i s = finish s (effectOf i s) := by cases i <;> rfl

/-- Every effect stays inside its frame. -/
theorem effectOf_frame {i : Instr} {s t : State} (h : effectOf i s = .ok t) : EffFrame (writesCell i) s t := by
  cases i
  · exact ensureTables_frame _ h
  · exact edcEffect_frame h
  · exact edcwEffect_frame h
  · exact pparEffect_frame h
  · exact qparEffect_frame h
  · exact hdrEffect_frame h
  · exact encodeEffect_frame h

/-! ### How an effect can end early -/

/-- The stops a command's effect has: the errors of the operand checks (R172, R174, R175), and UnwrittenRead (R26). -/
def Stop.Expected : Stop → Prop
  | .raised e => e = .sizeMismatch ∨ e = .range ∨ e = .lbaRange
  | .fault f => ∃ loc, f = .unwrittenRead loc

/-- A computation that stops, if it does, only so. -/
def Tame {α : Type} (x : Eff α) : Prop := ∀ st, x = .error st → st.Expected

theorem Tame.ok {α : Type} (a : α) : Tame (.ok a : Eff α) := fun _ h => by cases h

theorem Tame.bind {α β : Type} {x : Eff α} {f : α → Eff β} (hx : Tame x) (hf : ∀ a, Tame (f a)) : Tame (x >>= f) := by
  intro e h
  rcases x with st | a
  · exact hx e (congrArg Except.error (Except.error.inj h))
  · exact hf a e h

theorem Tame.valueAt {α : Type} (loc : Loc) (o : Option α) : Tame (valueAt loc o) := by
  rintro e h
  cases o
  · obtain rfl := Except.error.inj h
    exact ⟨loc, rfl⟩
  · cases h

theorem Tame.mapM {α β : Type} {f : α → Eff β} (l : List α) (hf : ∀ a, Tame (f a)) : Tame (l.mapM f) := by
  induction l with
  | nil => exact .ok _
  | cons a l ih => rw [List.mapM_cons]; exact (hf a).bind fun _ => ih.bind fun _ => .ok _

theorem Tame.foldlM {α β : Type} {f : β → α → Eff β} (l : List α) (b : β) (hf : ∀ b a, Tame (f b a)) :
    Tame (l.foldlM f b) := by
  induction l generalizing b with
  | nil => exact .ok _
  | cons a l ih => rw [List.foldlM_cons]; exact (hf b a).bind fun b => ih b

theorem Tame.ensureTables (s : State) : Tame (ensureTables s) := by
  obtain ⟨s', h⟩ := ensureTables_ok s
  rw [h]; exact .ok _

theorem Tame.calcEdc (s : State) (bs : List Byte) : Tame (calcEdc s bs) :=
  .foldlM _ _ fun _ _ => (Tame.valueAt _ _).bind fun _ => .ok _

theorem Tame.readRange (s : State) (off len : Nat) : Tame (readRange s off len) := .mapM _ fun _ => .valueAt _ _

theorem Tame.parityPass (steps : Nat → List (Nat × Nat)) (base half : Nat) (s : State) (l : List Nat) :
    Tame (l.foldlM (parityPair steps base half) s) :=
  .foldlM _ _ fun _ _ => (Tame.foldlM _ _ fun _ _ => (Tame.valueAt _ _).bind fun _ => (Tame.valueAt _ _).bind fun _ =>
    (Tame.valueAt _ _).bind fun _ => (Tame.valueAt _ _).bind fun _ => .ok _).bind fun _ => .ok _

theorem Tame.checkLba (l : Word) : Tame (checkLba l) := by
  intro e h
  unfold Machine.checkLba at h
  split at h
  · cases h
  · obtain rfl := Except.error.inj h
    exact .inr (.inr rfl)

theorem Tame.edcwEffect (s : State) : Tame (edcwEffect s) :=
  (Tame.ensureTables s).bind fun _ => (Tame.readRange _ _ _).bind fun _ => (Tame.calcEdc _ _).bind fun _ => .ok _

theorem Tame.hdrEffect (s : State) : Tame (hdrEffect s) :=
  (Tame.valueAt _ _).bind fun _ => (Tame.checkLba _).bind fun _ => .ok _

/-- The only stops of an effect are SIZE_MISMATCH, RANGE, LBA_RANGE and UnwrittenRead; INVARIANT never (R104). -/
theorem Tame.effectOf (i : Instr) (s : State) : Tame (effectOf i s) := by
  have hr : ∀ off len, Tame (checkRange off len) := by
    intro off len e h
    unfold checkRange at h
    split at h
    · cases h
    · obtain rfl := Except.error.inj h
      exact .inr (.inl rfl)
  have hn : ∀ n, Tame (checkLength n) := by
    intro n e h
    unfold checkLength at h
    split at h
    · cases h
    · obtain rfl := Except.error.inj h
      exact .inl rfl
  cases i
  · exact .ensureTables s
  · exact (hr _ _).bind fun _ => (Tame.ensureTables s).bind fun _ => (Tame.readRange _ _ _).bind fun _ =>
      (Tame.calcEdc _ _).bind fun _ => .ok _
  · exact .edcwEffect s
  · exact (Tame.ensureTables s).bind fun _ => .parityPass _ _ _ _ _
  · exact (Tame.ensureTables s).bind fun _ => .parityPass _ _ _ _ _
  · exact .hdrEffect s
  · exact (Tame.valueAt _ _).bind fun _ => (hn _).bind fun _ => (Tame.valueAt _ _).bind fun _ => (Tame.checkLba _).bind fun _ =>
      (Tame.ensureTables s).bind fun _ => (Tame.hdrEffect _).bind fun _ => (Tame.edcwEffect _).bind fun _ =>
      ((Tame.ensureTables _).bind fun _ => .parityPass _ _ _ _ _).bind fun _ =>
      (Tame.ensureTables _).bind fun _ => .parityPass _ _ _ _ _

/-- What a completion step of a command can do when it goes on: complete with its effect, inside its frame, or complete
with one of the three operand errors and no effect. -/
theorem exec_eq_next {i : Instr} {s t : State} (h : exec i s = .next t) :
    (∃ s', effectOf i s = .ok s' ∧ t = complete .none s' ∧ EffFrame (writesCell i) s s') ∨
    ((t.err = .sizeMismatch ∨ t.err = .range ∨ t.err = .lbaRange) ∧ t = complete t.err s) := by
  rw [exec_eq_finish] at h
  rcases finish_eq_next h with ⟨s', h1, h2⟩ | ⟨e, h1, h2⟩
  · exact .inl ⟨s', h1, h2, effectOf_frame h1⟩
  · refine .inr ?_
    subst h2
    rcases Tame.effectOf i s _ h1 with rfl | rfl | rfl <;> simp [raiseErr]

/-- A completion step of a command ends with no model fault but UnwrittenRead (R26). -/
theorem exec_eq_fault {i : Instr} {s : State} {f : Fault} (h : exec i s = .fault f) : ∃ loc, f = .unwrittenRead loc := by
  rw [exec_eq_finish] at h
  exact Tame.effectOf i s _ (finish_eq_fault h)

/-! ### One step -/

/-- The bytes of a command word decode as the word. -/
theorem decodeBytes_wordBytes (w : Word) : decodeBytes (wordBytes w) = decode w := by
  have h : bytesWord (w.extractLsb' 0 8) (w.extractLsb' 8 8) (w.extractLsb' 16 8) (w.extractLsb' 24 8) = w := by
    unfold bytesWord
    apply BitVec.eq_of_getLsbD_eq
    intro i hi
    simp only [BitVec.getLsbD_append, BitVec.getLsbD_extractLsb']
    split_ifs <;> simp <;> (try omega) <;> (rw [show _ + _ = i by omega]; try simp) <;> intros <;> omega
  simp only [decodeBytes, wordBytes, h]

/-- What the completion step can do (R42). -/
theorem engineStep_eq_next {s t : State} (h : engineStep s = .next t) :
    ∃ w, s.pend = some w ∧
      ((∃ i, decode w = .command i ∧ exec i s = .next t) ∨
        (∃ why, decode w = .illegal why ∧ t = complete .illegalCmd s)) := by
  unfold engineStep at h
  split at h
  · simp at h
  · next w hw =>
    rw [decodeBytes_wordBytes] at h
    refine ⟨w, hw, ?_⟩
    split at h
    · next i hi => exact .inl ⟨i, hi, h⟩
    · next why hi =>
      injection h with h
      exact .inr ⟨why, hi, h.symm⟩

/-- A completion step ends with no model fault but UnwrittenRead. -/
theorem engineStep_eq_fault {s : State} {f : Fault} (h : engineStep s = .fault f) : ∃ loc, f = .unwrittenRead loc := by
  unfold engineStep at h
  split at h
  · injection h with h
    exact ⟨.pend, h.symm⟩
  · split at h
    · exact exec_eq_fault h
    · cases h

/-- What an event that goes on can be: the engine's completion step, the host's next statement, or nothing (R62). -/
theorem event_eq_next {s t : State} (h : event s = .next t) :
    (engineTurn s = true ∧ engineStep s = .next t) ∨
    (engineTurn s = false ∧ s.host = [] ∧ t = s) ∨
    (engineTurn s = false ∧ ∃ st rest, s.host = st :: rest ∧ runStmt st (taken s rest) = .next t) := by
  unfold event at h
  split at h
  · next ht => exact .inl ⟨ht, h⟩
  · next ht =>
    have ht : engineTurn s = false := by simpa using ht
    unfold hostStep at h
    split at h
    · next hh =>
      injection h with h
      exact .inr (.inl ⟨ht, hh, h.symm⟩)
    · next st rest hh => exact .inr (.inr ⟨ht, st, rest, hh, h⟩)

theorem memRead_eq_error {s : State} {a : Offset} {n : Nat} {f : Fault} (h : memRead s a n = .error f) :
    f.endsRun = true := by
  unfold memRead at h
  split_ifs at h
  · obtain rfl := Except.error.inj h; rfl
  · obtain rfl := Except.error.inj h; rfl
  · split at h
    · cases h
    · obtain rfl := Except.error.inj h; rfl

theorem memWrite_eq_error {s : State} {a : Offset} {n : Nat} {v : Word} {f : Fault} (h : memWrite s a n v = .error f) :
    f.endsRun = true := by
  unfold memWrite at h
  split_ifs at h
  · obtain rfl := Except.error.inj h; rfl
  · obtain rfl := Except.error.inj h; rfl
  · split at h <;> cases h

/-- What a host statement that goes on has done: one successful access and its record, or reset. -/
theorem runStmt_eq_next {st : HostStmt} {s t : State} (h : runStmt st s = .next t) :
    match st with
    | .read a n => ∃ v, memRead s a n = .ok v ∧ t = { s with reads := s.reads ++ [v] }
    | .write a n v => memWrite s a n v = .ok t
    | .wait => ∃ v, memRead s statusOffset 4 = .ok v ∧ t = if v.getLsbD 0 then { s with host := .wait :: s.host } else s
    | .check => ∃ v, memRead s statusOffset 4 = .ok v ∧
        t = { s with reads := s.reads ++ [v], checkFailed := s.checkFailed || v.extractLsb' 8 4 != 0#4 }
    | .reset => t = resetBlock s := by
  cases st <;> simp only [runStmt] at h ⊢
  case reset => exact (Host.Outcome.next.inj h).symm
  case write =>
    split at h
    · next hw => rw [hw, Host.Outcome.next.inj h]
    · cases h
  all_goals
    split at h
    · next v hv => exact ⟨v, hv, (Host.Outcome.next.inj h).symm⟩
    · cases h

/-- Every model fault a host statement meets ends the run. -/
theorem runStmt_eq_fault {st : HostStmt} {s : State} {f : Fault} (h : runStmt st s = .fault f) : f.endsRun = true := by
  cases st <;> simp only [runStmt] at h <;> try cases h
  all_goals
    split at h
    · cases h
    · next hf =>
      injection h with h
      first | exact h ▸ memRead_eq_error hf | exact h ▸ memWrite_eq_error hf

/-- Every model fault that stops an event ends the run (R82). -/
theorem event_eq_fault {s : State} {f : Fault} (h : event s = .fault f) : f.endsRun = true := by
  unfold event at h
  split at h
  · obtain ⟨loc, rfl⟩ := engineStep_eq_fault h
    rfl
  · unfold hostStep at h
    split at h
    · cases h
    · exact runStmt_eq_fault h

@[simp] theorem event_engine {s : State} (h : engineTurn s = true) : event s = engineStep s := if_pos h

@[simp] theorem event_host {s : State} {st : HostStmt} {rest : List HostStmt} (h : engineTurn s = false)
    (hh : s.host = st :: rest) : event s = runStmt st (taken s rest) := by
  rw [event, h, if_neg (by simp), hostStep, hh]
  rfl

/-- A running machine takes its next event, with a model fault recorded. -/
theorem step_of_running {s : State} (h : Running s) : step s = recordOutcome s (event s) := by
  rw [step, stepRun, h]

/-- A run that a fault has ended answers that fault for good. -/
theorem step_of_ended {s : State} {f : Fault} (h : s.endedBy = some f) : step s = .fault f := by rw [step, stepRun, h]

/-- Recording a fault that ends the run ends it with that fault. -/
theorem endedBy_recordFault {s : State} {f : Fault} (h : Running s) (hf : f.endsRun = true) :
    (recordFault f s).endedBy = some f := by
  rw [Running, State.endedBy] at h
  simp [State.endedBy, List.find?_append, h, hf]

/-- What one step can do when it goes on: its event, or the record of the model fault the event met (R62, R177). -/
theorem step_eq_next {s t : State} (h : step s = .next t) :
    Running s ∧ (event s = .next t ∨ ∃ f, event s = .fault f ∧ t = recordFault f s) := by
  unfold step stepRun at h
  split at h
  · cases h
  · next hr =>
    refine ⟨hr, ?_⟩
    unfold recordOutcome at h
    split at h
    · next he => exact .inl (he.trans h)
    · next f he =>
      injection h with h
      exact .inr ⟨f, he, h.symm⟩
    · cases h

/-- A step that leaves the machine running was its event. -/
theorem event_of_step {s t : State} (h : step s = .next t) (ht : Running t) : Running s ∧ event s = .next t := by
  obtain ⟨hs, h | ⟨f, hf, rfl⟩⟩ := step_eq_next h
  · exact ⟨hs, h⟩
  · rw [Running, endedBy_recordFault hs (event_eq_fault hf)] at ht
    cases ht

/-- What a permitted host write can do (R57). -/
theorem memWrite_eq_ok {s t : State} {a : Offset} {n : Nat} {v : Word} (h : memWrite s a n v = .ok t) :
    writePermitted a n = true ∧ s.busy = false ∧
      ((regionOf a = .cmd ∧ t = accept v s) ∨ (regionOf a = .lba ∧ t = { s with lba := some v }) ∨
        (regionOf a = .dlen ∧ t = { s with dlen := some v }) ∨
        (regionOf a = .buf ∧ t = writeBuf s a.toNat ((List.range n).map fun t => wordByte v t))) := by
  unfold memWrite at h
  split at h
  · simp at h
  · next hp =>
    have hp : writePermitted a n = true := by simpa using hp
    split at h
    · simp at h
    · next hb =>
      refine ⟨hp, by simpa using hb, ?_⟩
      split at h
      · next hr => exact .inl ⟨hr, (Except.ok.inj h).symm⟩
      · next hr => exact .inr (.inl ⟨hr, (Except.ok.inj h).symm⟩)
      · next hr => exact .inr (.inr (.inl ⟨hr, (Except.ok.inj h).symm⟩))
      · next h1 h2 h3 =>
        refine .inr (.inr (.inr ⟨?_, (Except.ok.inj h).symm⟩))
        cases hr : regionOf a <;> simp_all [writePermitted, Region.writable]

/-- The offsets of BUF (R51). -/
theorem regionAt_eq_buf {a : Nat} : regionAt a = .buf ↔ a < 2352 := by
  simp only [regionAt, addressMap, lookupRegion]
  split_ifs <;> simp <;> omega

/-- An aligned access that starts in BUF stays in BUF (R51, R58). -/
theorem bufAccess_inside {a : Offset} {n : Nat} (hr : regionOf a = .buf) (hw : Region.buf.widthOk n = true)
    (ha : aligned a n = true) : a.toNat + n ≤ 2352 := by
  have h1 : a.toNat < 2352 := regionAt_eq_buf.1 hr
  have h2 : a.toNat % n = 0 := by simpa [aligned] using ha
  have h3 : n = 1 ∨ n = 2 ∨ n = 4 := by
    simpa [Region.widthOk, or_assoc] using hw
  rcases h3 with rfl | rfl | rfl <;> omega

end Sys2Proof.Machine
end

