-- ==== Sys2Proof/Laws/PerInstr.lean ====
section
/-! SUPPORT. The per-instruction family OpcodeField: one lemma for each constructor of `Instr`. -/

namespace Sys2Proof.Laws

/-- The low byte of a command's word is its OP, one of the assigned values 0x01 to 0x07 (spec/30_encoding.md R71, R73). -/
def OpcodeField.Statement (i : Instr) : Prop :=
  (encode i).extractLsb' 0 8 = i.opcode ∧ 1 ≤ i.opcode.toNat ∧ i.opcode.toNat ≤ 7

theorem OpcodeField.init : OpcodeField.Statement .init := by unfold OpcodeField.Statement; decide

theorem OpcodeField.edc (off len : Nat) : OpcodeField.Statement (.edc off len) := by
  refine ⟨?_, by simp [Instr.opcode], by simp [Instr.opcode]⟩
  ext k hk
  simp only [encode, BitVec.getElem_extractLsb', BitVec.getLsbD_append]
  simp [hk, Instr.opcode, BitVec.getLsbD_eq_getElem]

theorem OpcodeField.edcw : OpcodeField.Statement .edcw := by unfold OpcodeField.Statement; decide

theorem OpcodeField.ppar : OpcodeField.Statement .ppar := by unfold OpcodeField.Statement; decide

theorem OpcodeField.qpar : OpcodeField.Statement .qpar := by unfold OpcodeField.Statement; decide

theorem OpcodeField.hdr : OpcodeField.Statement .hdr := by unfold OpcodeField.Statement; decide

theorem OpcodeField.encode : OpcodeField.Statement .encode := by unfold OpcodeField.Statement; decide

end Sys2Proof.Laws
end

