-- ==== Sys2Proof/Tests/Slice0.lean ====
section
/-! SUPPORT. The model's own tests. Expected values are those of spec/95_test_vectors.md, of the rules' examples and of the
listings of spec/40_gf_tables.md and spec/41_edc.md; each test names its source. The witnesses at the end show, for every
statement of Certificates/Slice0/Obligations.lean with hypotheses, a state that meets them. -/

namespace Sys2Proof.Tests

open Sys2Proof.Machine

/-! ### Helpers -/

/-- What a step leaves, or nothing if it did not go on. -/
def after (o : Outcome) : Option State :=
  match o with
  | .next s => some s
  | .fault _ => none
  | .refused _ => none

/-- The model fault a step recorded last. -/
def faultOf (o : Outcome) : Option Fault := (after o).bind fun s => s.faults.getLast?

/-- Whether a step answers a fault: the run has ended. -/
def endsWith (o : Outcome) (f : Fault) : Bool :=
  match o with
  | .fault g => g == f
  | .next _ | .refused _ => false

/-- The STATUS word a step leaves. -/
def statusAfter (o : Outcome) : Option Word := (after o).map State.statusWord

/-- A BUF cell after a step. -/
def bufAfter (o : Outcome) (a : Nat) : Option Byte := (after o).bind fun s => s.buf.read a

/-- Reset, with the host about to execute `st`. -/
def hostState (st : HostStmt) : State := { State.reset with host := [st] }

/-- Reset, with bytes at BUF[0..]. -/
def bufState (bs : List Byte) : State := writeBuf State.reset 0 bs

/-! ### Well-formed terms (R71, R72, R58) -/

theorem test_wf_edc_max : (Instr.edc 4095 4095).wellFormed = true := by decide

theorem test_wf_refuses_long_off : (Instr.edc 4096 0).wellFormed = false := by decide

theorem test_wf_refuses_long_len : (Instr.edc 0 4096).wellFormed = false := by decide

theorem test_wf_refuses_width_3 : (HostStmt.read 0x0000#16 3).wellFormed = false := by decide

theorem test_wf_refuses_wide_byte : (HostStmt.write 0x0000#16 1 0x100#32).wellFormed = false := by decide

/-! ### Decoding: words written out from the table's bit patterns -/

theorem test_decode_init : decode 0b00000000000000000000000000000001#32 = .command .init := by decide

/-- LEN = 0x009, OFF = 0x000 (95_test_vectors.md D8). -/
theorem test_decode_edc : decode 0b00000000100100000000000000000010#32 = .command (.edc 0 9) := by decide

/-- LEN = 0x930 = 2352, OFF = 0xFFF = 4095 (D16): which field is which. -/
theorem test_decode_edc_fields : decode 0b10010011000011111111111100000010#32 = .command (.edc 4095 2352) := by decide

theorem test_decode_edcw : decode 0b00000000000000000000000000000011#32 = .command .edcw := by decide

theorem test_decode_ppar : decode 0b00000000000000000000000000000100#32 = .command .ppar := by decide

theorem test_decode_qpar : decode 0b00000000000000000000000000000101#32 = .command .qpar := by decide

theorem test_decode_hdr : decode 0b00000000000000000000000000000110#32 = .command .hdr := by decide

theorem test_decode_encode : decode 0b00000000000000000000000000000111#32 = .command .encode := by decide

/-- X5, X6, X7: unassigned OP. -/
theorem test_decode_unassigned :
    decode 0x00000000#32 = .illegal .unassignedOp ∧ decode 0x00000008#32 = .illegal .unassignedOp ∧
      decode 0xFFFFFFFF#32 = .illegal .unassignedOp := by decide

/-- X8, X9: a reserved bit set. -/
theorem test_decode_reserved :
    decode 0x00000107#32 = .illegal .reservedBits ∧ decode 0x80000001#32 = .illegal .reservedBits := by decide

/-- The bytes of a word in bus order: `EDC 0, 2064` is 02 00 00 81 (R80, R53). -/
theorem test_decode_bytes : decodeBytes [0x02#8, 0x00#8, 0x00#8, 0x81#8] = .command (.edc 0 2064) := by decide

theorem test_decode_three_bytes : decodeBytes [0x01#8, 0x00#8, 0x00#8] = .illegal .notFourBytes := by decide

/-- R80: EDCS is the word 0x81000002. -/
theorem test_encode_edcs : encode (.edc 0 2064) = 0x81000002#32 := by decide

theorem test_table_word_edc : decodeTableWord 32 0x00193002 = some (.edc 2352 1) := by decide

/-! ### Tables -/

/-- R105: LOG as listed. -/
theorem test_log_listing : buildGf.log.toList =
    [0x00#8, 0x00#8, 0x01#8, 0x19#8, 0x02#8, 0x32#8, 0x1A#8, 0xC6#8, 0x03#8, 0xDF#8, 0x33#8, 0xEE#8, 0x1B#8, 0x68#8, 0xC7#8, 0x4B#8] ++
    [0x04#8, 0x64#8, 0xE0#8, 0x0E#8, 0x34#8, 0x8D#8, 0xEF#8, 0x81#8, 0x1C#8, 0xC1#8, 0x69#8, 0xF8#8, 0xC8#8, 0x08#8, 0x4C#8, 0x71#8] ++
    [0x05#8, 0x8A#8, 0x65#8, 0x2F#8, 0xE1#8, 0x24#8, 0x0F#8, 0x21#8, 0x35#8, 0x93#8, 0x8E#8, 0xDA#8, 0xF0#8, 0x12#8, 0x82#8, 0x45#8] ++
    [0x1D#8, 0xB5#8, 0xC2#8, 0x7D#8, 0x6A#8, 0x27#8, 0xF9#8, 0xB9#8, 0xC9#8, 0x9A#8, 0x09#8, 0x78#8, 0x4D#8, 0xE4#8, 0x72#8, 0xA6#8] ++
    [0x06#8, 0xBF#8, 0x8B#8, 0x62#8, 0x66#8, 0xDD#8, 0x30#8, 0xFD#8, 0xE2#8, 0x98#8, 0x25#8, 0xB3#8, 0x10#8, 0x91#8, 0x22#8, 0x88#8] ++
    [0x36#8, 0xD0#8, 0x94#8, 0xCE#8, 0x8F#8, 0x96#8, 0xDB#8, 0xBD#8, 0xF1#8, 0xD2#8, 0x13#8, 0x5C#8, 0x83#8, 0x38#8, 0x46#8, 0x40#8] ++
    [0x1E#8, 0x42#8, 0xB6#8, 0xA3#8, 0xC3#8, 0x48#8, 0x7E#8, 0x6E#8, 0x6B#8, 0x3A#8, 0x28#8, 0x54#8, 0xFA#8, 0x85#8, 0xBA#8, 0x3D#8] ++
    [0xCA#8, 0x5E#8, 0x9B#8, 0x9F#8, 0x0A#8, 0x15#8, 0x79#8, 0x2B#8, 0x4E#8, 0xD4#8, 0xE5#8, 0xAC#8, 0x73#8, 0xF3#8, 0xA7#8, 0x57#8] ++
    [0x07#8, 0x70#8, 0xC0#8, 0xF7#8, 0x8C#8, 0x80#8, 0x63#8, 0x0D#8, 0x67#8, 0x4A#8, 0xDE#8, 0xED#8, 0x31#8, 0xC5#8, 0xFE#8, 0x18#8] ++
    [0xE3#8, 0xA5#8, 0x99#8, 0x77#8, 0x26#8, 0xB8#8, 0xB4#8, 0x7C#8, 0x11#8, 0x44#8, 0x92#8, 0xD9#8, 0x23#8, 0x20#8, 0x89#8, 0x2E#8] ++
    [0x37#8, 0x3F#8, 0xD1#8, 0x5B#8, 0x95#8, 0xBC#8, 0xCF#8, 0xCD#8, 0x90#8, 0x87#8, 0x97#8, 0xB2#8, 0xDC#8, 0xFC#8, 0xBE#8, 0x61#8] ++
    [0xF2#8, 0x56#8, 0xD3#8, 0xAB#8, 0x14#8, 0x2A#8, 0x5D#8, 0x9E#8, 0x84#8, 0x3C#8, 0x39#8, 0x53#8, 0x47#8, 0x6D#8, 0x41#8, 0xA2#8] ++
    [0x1F#8, 0x2D#8, 0x43#8, 0xD8#8, 0xB7#8, 0x7B#8, 0xA4#8, 0x76#8, 0xC4#8, 0x17#8, 0x49#8, 0xEC#8, 0x7F#8, 0x0C#8, 0x6F#8, 0xF6#8] ++
    [0x6C#8, 0xA1#8, 0x3B#8, 0x52#8, 0x29#8, 0x9D#8, 0x55#8, 0xAA#8, 0xFB#8, 0x60#8, 0x86#8, 0xB1#8, 0xBB#8, 0xCC#8, 0x3E#8, 0x5A#8] ++
    [0xCB#8, 0x59#8, 0x5F#8, 0xB0#8, 0x9C#8, 0xA9#8, 0xA0#8, 0x51#8, 0x0B#8, 0xF5#8, 0x16#8, 0xEB#8, 0x7A#8, 0x75#8, 0x2C#8, 0xD7#8] ++
    [0x4F#8, 0xAE#8, 0xD5#8, 0xE9#8, 0xE6#8, 0xE7#8, 0xAD#8, 0xE8#8, 0x74#8, 0xD6#8, 0xF4#8, 0xEA#8, 0xA8#8, 0x50#8, 0x58#8, 0xAF#8] := by
  decide +kernel

/-- R106: ILOG as listed. -/
theorem test_ilog_listing : buildGf.ilog.toList =
    [0x01#8, 0x02#8, 0x04#8, 0x08#8, 0x10#8, 0x20#8, 0x40#8, 0x80#8, 0x1D#8, 0x3A#8, 0x74#8, 0xE8#8, 0xCD#8, 0x87#8, 0x13#8, 0x26#8] ++
    [0x4C#8, 0x98#8, 0x2D#8, 0x5A#8, 0xB4#8, 0x75#8, 0xEA#8, 0xC9#8, 0x8F#8, 0x03#8, 0x06#8, 0x0C#8, 0x18#8, 0x30#8, 0x60#8, 0xC0#8] ++
    [0x9D#8, 0x27#8, 0x4E#8, 0x9C#8, 0x25#8, 0x4A#8, 0x94#8, 0x35#8, 0x6A#8, 0xD4#8, 0xB5#8, 0x77#8, 0xEE#8, 0xC1#8, 0x9F#8, 0x23#8] ++
    [0x46#8, 0x8C#8, 0x05#8, 0x0A#8, 0x14#8, 0x28#8, 0x50#8, 0xA0#8, 0x5D#8, 0xBA#8, 0x69#8, 0xD2#8, 0xB9#8, 0x6F#8, 0xDE#8, 0xA1#8] ++
    [0x5F#8, 0xBE#8, 0x61#8, 0xC2#8, 0x99#8, 0x2F#8, 0x5E#8, 0xBC#8, 0x65#8, 0xCA#8, 0x89#8, 0x0F#8, 0x1E#8, 0x3C#8, 0x78#8, 0xF0#8] ++
    [0xFD#8, 0xE7#8, 0xD3#8, 0xBB#8, 0x6B#8, 0xD6#8, 0xB1#8, 0x7F#8, 0xFE#8, 0xE1#8, 0xDF#8, 0xA3#8, 0x5B#8, 0xB6#8, 0x71#8, 0xE2#8] ++
    [0xD9#8, 0xAF#8, 0x43#8, 0x86#8, 0x11#8, 0x22#8, 0x44#8, 0x88#8, 0x0D#8, 0x1A#8, 0x34#8, 0x68#8, 0xD0#8, 0xBD#8, 0x67#8, 0xCE#8] ++
    [0x81#8, 0x1F#8, 0x3E#8, 0x7C#8, 0xF8#8, 0xED#8, 0xC7#8, 0x93#8, 0x3B#8, 0x76#8, 0xEC#8, 0xC5#8, 0x97#8, 0x33#8, 0x66#8, 0xCC#8] ++
    [0x85#8, 0x17#8, 0x2E#8, 0x5C#8, 0xB8#8, 0x6D#8, 0xDA#8, 0xA9#8, 0x4F#8, 0x9E#8, 0x21#8, 0x42#8, 0x84#8, 0x15#8, 0x2A#8, 0x54#8] ++
    [0xA8#8, 0x4D#8, 0x9A#8, 0x29#8, 0x52#8, 0xA4#8, 0x55#8, 0xAA#8, 0x49#8, 0x92#8, 0x39#8, 0x72#8, 0xE4#8, 0xD5#8, 0xB7#8, 0x73#8] ++
    [0xE6#8, 0xD1#8, 0xBF#8, 0x63#8, 0xC6#8, 0x91#8, 0x3F#8, 0x7E#8, 0xFC#8, 0xE5#8, 0xD7#8, 0xB3#8, 0x7B#8, 0xF6#8, 0xF1#8, 0xFF#8] ++
    [0xE3#8, 0xDB#8, 0xAB#8, 0x4B#8, 0x96#8, 0x31#8, 0x62#8, 0xC4#8, 0x95#8, 0x37#8, 0x6E#8, 0xDC#8, 0xA5#8, 0x57#8, 0xAE#8, 0x41#8] ++
    [0x82#8, 0x19#8, 0x32#8, 0x64#8, 0xC8#8, 0x8D#8, 0x07#8, 0x0E#8, 0x1C#8, 0x38#8, 0x70#8, 0xE0#8, 0xDD#8, 0xA7#8, 0x53#8, 0xA6#8] ++
    [0x51#8, 0xA2#8, 0x59#8, 0xB2#8, 0x79#8, 0xF2#8, 0xF9#8, 0xEF#8, 0xC3#8, 0x9B#8, 0x2B#8, 0x56#8, 0xAC#8, 0x45#8, 0x8A#8, 0x09#8] ++
    [0x12#8, 0x24#8, 0x48#8, 0x90#8, 0x3D#8, 0x7A#8, 0xF4#8, 0xF5#8, 0xF7#8, 0xF3#8, 0xFB#8, 0xEB#8, 0xCB#8, 0x8B#8, 0x0B#8, 0x16#8] ++
    [0x2C#8, 0x58#8, 0xB0#8, 0x7D#8, 0xFA#8, 0xE9#8, 0xCF#8, 0x83#8, 0x1B#8, 0x36#8, 0x6C#8, 0xD8#8, 0xAD#8, 0x47#8, 0x8E#8, 0x00#8] := by
  decide +kernel

/-- R118: CRC_T as listed. -/
theorem test_crc_listing : (List.range 256).map (fun n => crcEntry (BitVec.ofNat 8 n)) =
    [0x00000000#32, 0x90910101#32, 0x91210201#32, 0x01B00300#32, 0x92410401#32, 0x02D00500#32, 0x03600600#32, 0x93F10701#32] ++
    [0x94810801#32, 0x04100900#32, 0x05A00A00#32, 0x95310B01#32, 0x06C00C00#32, 0x96510D01#32, 0x97E10E01#32, 0x07700F00#32] ++
    [0x99011001#32, 0x09901100#32, 0x08201200#32, 0x98B11301#32, 0x0B401400#32, 0x9BD11501#32, 0x9A611601#32, 0x0AF01700#32] ++
    [0x0D801800#32, 0x9D111901#32, 0x9CA11A01#32, 0x0C301B00#32, 0x9FC11C01#32, 0x0F501D00#32, 0x0EE01E00#32, 0x9E711F01#32] ++
    [0x82012001#32, 0x12902100#32, 0x13202200#32, 0x83B12301#32, 0x10402400#32, 0x80D12501#32, 0x81612601#32, 0x11F02700#32] ++
    [0x16802800#32, 0x86112901#32, 0x87A12A01#32, 0x17302B00#32, 0x84C12C01#32, 0x14502D00#32, 0x15E02E00#32, 0x85712F01#32] ++
    [0x1B003000#32, 0x8B913101#32, 0x8A213201#32, 0x1AB03300#32, 0x89413401#32, 0x19D03500#32, 0x18603600#32, 0x88F13701#32] ++
    [0x8F813801#32, 0x1F103900#32, 0x1EA03A00#32, 0x8E313B01#32, 0x1DC03C00#32, 0x8D513D01#32, 0x8CE13E01#32, 0x1C703F00#32] ++
    [0xB4014001#32, 0x24904100#32, 0x25204200#32, 0xB5B14301#32, 0x26404400#32, 0xB6D14501#32, 0xB7614601#32, 0x27F04700#32] ++
    [0x20804800#32, 0xB0114901#32, 0xB1A14A01#32, 0x21304B00#32, 0xB2C14C01#32, 0x22504D00#32, 0x23E04E00#32, 0xB3714F01#32] ++
    [0x2D005000#32, 0xBD915101#32, 0xBC215201#32, 0x2CB05300#32, 0xBF415401#32, 0x2FD05500#32, 0x2E605600#32, 0xBEF15701#32] ++
    [0xB9815801#32, 0x29105900#32, 0x28A05A00#32, 0xB8315B01#32, 0x2BC05C00#32, 0xBB515D01#32, 0xBAE15E01#32, 0x2A705F00#32] ++
    [0x36006000#32, 0xA6916101#32, 0xA7216201#32, 0x37B06300#32, 0xA4416401#32, 0x34D06500#32, 0x35606600#32, 0xA5F16701#32] ++
    [0xA2816801#32, 0x32106900#32, 0x33A06A00#32, 0xA3316B01#32, 0x30C06C00#32, 0xA0516D01#32, 0xA1E16E01#32, 0x31706F00#32] ++
    [0xAF017001#32, 0x3F907100#32, 0x3E207200#32, 0xAEB17301#32, 0x3D407400#32, 0xADD17501#32, 0xAC617601#32, 0x3CF07700#32] ++
    [0x3B807800#32, 0xAB117901#32, 0xAAA17A01#32, 0x3A307B00#32, 0xA9C17C01#32, 0x39507D00#32, 0x38E07E00#32, 0xA8717F01#32] ++
    [0xD8018001#32, 0x48908100#32, 0x49208200#32, 0xD9B18301#32, 0x4A408400#32, 0xDAD18501#32, 0xDB618601#32, 0x4BF08700#32] ++
    [0x4C808800#32, 0xDC118901#32, 0xDDA18A01#32, 0x4D308B00#32, 0xDEC18C01#32, 0x4E508D00#32, 0x4FE08E00#32, 0xDF718F01#32] ++
    [0x41009000#32, 0xD1919101#32, 0xD0219201#32, 0x40B09300#32, 0xD3419401#32, 0x43D09500#32, 0x42609600#32, 0xD2F19701#32] ++
    [0xD5819801#32, 0x45109900#32, 0x44A09A00#32, 0xD4319B01#32, 0x47C09C00#32, 0xD7519D01#32, 0xD6E19E01#32, 0x46709F00#32] ++
    [0x5A00A000#32, 0xCA91A101#32, 0xCB21A201#32, 0x5BB0A300#32, 0xC841A401#32, 0x58D0A500#32, 0x5960A600#32, 0xC9F1A701#32] ++
    [0xCE81A801#32, 0x5E10A900#32, 0x5FA0AA00#32, 0xCF31AB01#32, 0x5CC0AC00#32, 0xCC51AD01#32, 0xCDE1AE01#32, 0x5D70AF00#32] ++
    [0xC301B001#32, 0x5390B100#32, 0x5220B200#32, 0xC2B1B301#32, 0x5140B400#32, 0xC1D1B501#32, 0xC061B601#32, 0x50F0B700#32] ++
    [0x5780B800#32, 0xC711B901#32, 0xC6A1BA01#32, 0x5630BB00#32, 0xC5C1BC01#32, 0x5550BD00#32, 0x54E0BE00#32, 0xC471BF01#32] ++
    [0x6C00C000#32, 0xFC91C101#32, 0xFD21C201#32, 0x6DB0C300#32, 0xFE41C401#32, 0x6ED0C500#32, 0x6F60C600#32, 0xFFF1C701#32] ++
    [0xF881C801#32, 0x6810C900#32, 0x69A0CA00#32, 0xF931CB01#32, 0x6AC0CC00#32, 0xFA51CD01#32, 0xFBE1CE01#32, 0x6B70CF00#32] ++
    [0xF501D001#32, 0x6590D100#32, 0x6420D200#32, 0xF4B1D301#32, 0x6740D400#32, 0xF7D1D501#32, 0xF661D601#32, 0x66F0D700#32] ++
    [0x6180D800#32, 0xF111D901#32, 0xF0A1DA01#32, 0x6030DB00#32, 0xF3C1DC01#32, 0x6350DD00#32, 0x62E0DE00#32, 0xF271DF01#32] ++
    [0xEE01E001#32, 0x7E90E100#32, 0x7F20E200#32, 0xEFB1E301#32, 0x7C40E400#32, 0xECD1E501#32, 0xED61E601#32, 0x7DF0E700#32] ++
    [0x7A80E800#32, 0xEA11E901#32, 0xEBA1EA01#32, 0x7B30EB00#32, 0xE8C1EC01#32, 0x7850ED00#32, 0x79E0EE00#32, 0xE971EF01#32] ++
    [0x7700F000#32, 0xE791F101#32, 0xE621F201#32, 0x76B0F300#32, 0xE541F401#32, 0x75D0F500#32, 0x7460F600#32, 0xE4F1F701#32] ++
    [0xE381F801#32, 0x7310F900#32, 0x72A0FA00#32, 0xE231FB01#32, 0x71C0FC00#32, 0xE151FD01#32, 0xE0E1FE01#32, 0x7070FF00#32] := by
  decide +kernel

/-- R107: the check values of rows 0, 18, 19 and 42 of PQ_T. -/
theorem test_pqt_values :
    (do let v1 ← vectorV1 buildGf
        let v0 ← vectorV0 buildGf
        pure (([(0, 0x07#8), (0, 0x80#8), (0, 0xFF#8), (18, 0x02#8), (18, 0xFF#8), (19, 0x01#8), (19, 0x80#8), (42, 0x07#8),
          (42, 0xFF#8)] : List (Nat × Byte)).map fun rv => pqtEntry (v1.getD rv.1 0#8) (v0.getD rv.1 0#8) rv.2)) =
    some [0x6D6A#16, 0x8D0D#16, 0x6798#16, 0xF1F3#16, 0xB649#16, 0xF5F4#16, 0x0B8B#16, 0x090E#16, 0x1CE3#16] := by
  decide +kernel

/-- R108 and 95_test_vectors.md G1 to G12. -/
theorem test_gf_corners :
    gfMul 0x02#8 0x80#8 = 0x1D#8 ∧ gfMul 0xFF#8 0xFF#8 = 0xE2#8 ∧ gfMul 0x8E#8 0x02#8 = 0x01#8 ∧
      gfDiv buildGf 0x01#8 0x03#8 = some 0xF4#8 ∧ gfDiv buildGf 0x05#8 0x00#8 = none := by
  decide +kernel

/-! ### One step of each command -/

/-- I1, R90: INIT from reset leaves STATUS = 0x00000006. -/
theorem test_init_status : statusAfter (step (State.reset.withFetchWord 32 0x00000001)) = some 0x00000006#32 := by
  decide +kernel

/-- I8: the high byte of PQ_T[19][1] in its window after INIT. -/
theorem test_init_window :
    ((after (step (State.reset.withFetchWord 32 0x00000001))).bind fun s => s.cell 0x6603) = some 0xF5#8 := by
  decide +kernel

/-- D8, program 4: EDC of "123456789". -/
theorem test_edc_digits :
    ((after (step ((bufState [0x31#8, 0x32#8, 0x33#8, 0x34#8, 0x35#8, 0x36#8, 0x37#8, 0x38#8, 0x39#8]).withFetchWord 32
      0x00900002))).bind State.edcResult) = some 0x6EC2EDC4#32 := by
  decide +kernel

/-- D15: OFF = 2352, LEN = 1 is RANGE, and TV stays 0. -/
theorem test_edc_range : statusAfter (step (State.reset.withFetchWord 32 0x00193002)) = some 0x00000302#32 := by
  decide +kernel

/-- D18: the first unwritten cell of the range is the fault. -/
theorem test_edc_unwritten :
    faultOf (step ((bufState [0x31#8, 0x32#8]).withFetchWord 32 0x00A00002)) = some (.unwrittenRead (.buf 2)) := by
  decide +kernel

/-- D12, R54: where EDCW's four bytes land, for the checksum 0x2B6813C5. -/
theorem test_edcw_bytes :
    [wordByte 0x2B6813C5#32 0, wordByte 0x2B6813C5#32 1, wordByte 0x2B6813C5#32 2, wordByte 0x2B6813C5#32 3] =
      [0xC5#8, 0x13#8, 0x68#8, 0x2B#8] := by decide

/-- P1, R135: the impulse BUF[12] = 01 at row 19 gives a = 0xF5F4, b = 0. -/
theorem test_ppar_impulse :
    accumulate ((after (execInit (writeBuf State.reset 12 [0x01#8, 0x00#8]))).getD State.reset) [(19, 12)] =
      .ok (0xF5F4#16, 0x0000#16) := by
  decide +kernel

/-- P1, R134: a = 0xF5F4 of pair 0 lands as F5 at 2076 and F4 at 2162. -/
theorem test_ppar_placement :
    let s := placeParity 2076 86 0 (0xF5F4#16, 0x0000#16) State.reset
    (s.buf.read 2076, s.buf.read 2077, s.buf.read 2162, s.buf.read 2163) =
      (some 0xF5#8, some 0x00#8, some 0xF4#8, some 0x00#8) := by decide

/-- R136: the offsets of diagonal pair 0, with the wrap after 2212. -/
theorem test_qpar_offsets :
    ((qSteps 0).map Prod.snd).take 27 =
      [12, 100, 188, 276, 364, 452, 540, 628, 716, 804, 892, 980, 1068, 1156, 1244, 1332, 1420, 1508, 1596, 1684, 1772, 1860,
       1948, 2036, 2124, 2212, 64] := by decide +kernel

/-- Q5: BUF[2247] = 01 gives 03 at 2267 and 02 at 2319, so it is read by pair 9 with row 42 (V1 = 03, V0 = 02). -/
theorem test_qpar_last_row : (42, 2246) ∈ qSteps 9 := by decide +kernel

/-- H10: LBA 449849 is 99:59:74. -/
theorem test_hdr_max :
    let o := step ({ State.reset with lba := some 449849#32 }.withFetchWord 32 0x00000006)
    (bufAfter o 12, bufAfter o 13, bufAfter o 14, bufAfter o 15, statusAfter o) =
      (some 0x99#8, some 0x59#8, some 0x74#8, some 0x01#8, some 0x00000002#32) := by
  decide +kernel

/-- H12: LBA 4294967295 is LBA_RANGE (an unsigned comparison), and nothing is written. -/
theorem test_hdr_range :
    let o := step ({ State.reset with lba := some 0xFFFFFFFF#32 }.withFetchWord 32 0x00000006)
    (statusAfter o, bufAfter o 12) = (some 0x00000402#32, none) := by
  decide +kernel

/-- X4, R179: SIZE_MISMATCH is checked before LBA_RANGE. -/
theorem test_encode_size_first :
    statusAfter (step ({ State.reset with dlen := some 0#32, lba := some 449850#32 }.withFetchWord 32 0x00000007)) =
      some 0x00000102#32 := by
  decide +kernel

/-- F12: ENCODE with no data is UnwrittenRead of BUF[16]. -/
theorem test_encode_unwritten :
    faultOf (step ({ State.reset with dlen := some 2048#32, lba := some 0#32 }.withFetchWord 32 0x00000007)) =
      some (.unwrittenRead (.buf 16)) := by
  decide +kernel

/-- X8: an illegal word is reported before DLEN is looked at. -/
theorem test_illegal_first :
    statusAfter (step ({ State.reset with dlen := some 2047#32 }.withFetchWord 32 0x00000107)) = some 0x00000202#32 := by
  decide +kernel

/-! ### The host bus (95_test_vectors.md, section 2.8) -/

/-- F1, F2, F3. -/
theorem test_wrong_direction :
    faultOf (step (hostState (.read 0x1000#16 4))) = some (.hostAccessFault 0x1000#16 4) ∧
      faultOf (step (hostState (.write 0x1004#16 4 0#32))) = some (.hostAccessFault 0x1004#16 4) ∧
      faultOf (step (hostState (.write 0x1010#16 4 0#32))) = some (.hostAccessFault 0x1010#16 4) := by
  decide +kernel

/-- R177, R82: the record of F1 stays, nothing else has changed, and the run has ended. -/
theorem test_fault_is_kept :
    (after (step (hostState (.read 0x1000#16 4)))).map (fun s => (s.faults, s.host, s.statusWord,
      endsWith (step s) (.hostAccessFault 0x1000#16 4))) =
      some ([.hostAccessFault 0x1000#16 4], [.read 0x1000#16 4], 0#32, true) := by
  decide +kernel

/-- F4, F5, F6, F8. -/
theorem test_malformed :
    faultOf (step (hostState (.read 0x0001#16 2))) = some (.hostAccessFault 0x0001#16 2) ∧
      faultOf (step (hostState (.read 0x1004#16 1))) = some (.hostAccessFault 0x1004#16 1) ∧
      faultOf (step (hostState (.write 0x0930#16 4 0#32))) = some (.hostAccessFault 0x0930#16 4) ∧
      faultOf (step (hostState (.read 0x95FE#16 4))) = some (.hostAccessFault 0x95FE#16 4) := by
  decide +kernel

/-- F9, F10, F11, I12. -/
theorem test_unwritten_host_reads :
    faultOf (step (hostState (.read 0x1010#16 4))) = some (.unwrittenRead (.bus 0x1010#16)) ∧
      faultOf (step (hostState (.read 0x1008#16 4))) = some (.unwrittenRead (.bus 0x1008#16)) ∧
      faultOf (step (hostState (.read 0x0000#16 1))) = some (.unwrittenRead (.bus 0x0000#16)) ∧
      faultOf (step (hostState (.read 0x2000#16 1))) = some (.unwrittenRead (.bus 0x2000#16)) := by
  decide +kernel

/-- A state with ENCODE accepted and the engine not to move for 3 host steps (F14 to F17). -/
def busyState (st : HostStmt) : State :=
  { latch 0x00000007#32 (hostState st) with lba := some 0#32, stall := 3 }

/-- F14, F15, F16. -/
theorem test_hazards :
    faultOf (step (busyState (.read 0x0010#16 1))) = some (.hostHazard 0x0010#16) ∧
      faultOf (step (busyState (.write 0x1008#16 4 1#32))) = some (.hostHazard 0x1008#16) ∧
      faultOf (step (busyState (.write 0x1000#16 4 1#32))) = some (.hostHazard 0x1000#16) := by
  decide +kernel

/-- F17: LBA and STATUS can be read while BUSY = 1. -/
theorem test_reads_while_busy :
    (after (step (busyState (.read 0x1008#16 4)))).map State.reads = some [0x00000000#32] ∧
      (after (step (busyState (.read 0x1004#16 4)))).map State.reads = some [0x00000001#32] := by
  decide +kernel

/-- Program 4: `wr32 0x0000, 0x34333231` puts "1234" in memory order. -/
theorem test_write_little_endian :
    (after (step (hostState (.write 0x0000#16 4 0x34333231#32)))).map State.buf =
      some [(0, 0x31#8), (1, 0x32#8), (2, 0x33#8), (3, 0x34#8)] := by
  decide +kernel

/-- R32 under FATAL: STATUS = 0x00000F0A and no other effect (section 2.7). -/
theorem test_cmd_under_fatal :
    statusAfter (step { hostState (.write 0x1000#16 4 7#32) with fatal := true }) = some 0x00000F0A#32 := by
  decide +kernel

/-- R32: acceptance sets BUSY, clears DONE and ERR, and latches the word. -/
theorem test_cmd_accepts :
    (after (step { hostState (.write 0x1000#16 4 7#32) with done := true, err := .range })).map
      (fun s => (s.statusWord, s.pend)) = some (0x00000001#32, some 7#32) := by
  decide +kernel

/-- R191: reset while BUSY = 1 abandons the command. -/
theorem test_reset_abandons :
    (after (step (busyState .reset))).map (fun s => (s.statusWord, s.pend, s.lba)) = some (0#32, none, none) := by
  decide +kernel

/-- R79: `fill 16, 2, 0xAB` is two byte writes. -/
theorem test_expand_fill :
    expand (.fill 0x0010#16 2 0xAB#8) = [.write 0x0010#16 1 0xAB#32, .write 0x0011#16 1 0xAB#32] := by decide

/-! ### Witnesses: states that meet the statements' hypotheses -/

/-- A buffer of `n` zero bytes. -/
@[irreducible] def zeros (n : Nat) : Memory := (List.range n).map fun a => (a, 0x00#8)

theorem read_zeros {n a : Nat} (h : a < n) : (zeros n).read a = some 0x00#8 := by
  have key : ∀ (l : List Nat), a ∈ l → Memory.read (l.map fun a => (a, 0x00#8)) a = some 0x00#8 := by
    intro l hl
    induction l with
    | nil => simp at hl
    | cons b l ih =>
      rw [List.map_cons, Memory.read]
      split
      · rfl
      · next hne => exact ih ((List.mem_cons.1 hl).resolve_left fun h => hne h.symm)
  rw [zeros]
  exact key _ (List.mem_range.2 h)

/-- Every cell written, DLEN = 2048, LBA = 0, tables not built, as after a host has written everything. -/
def fullState : State := { State.reset with buf := zeros 2352, lba := some 0#32, dlen := some 2048#32 }

theorem fullState_tablesOk : TablesOk fullState := by simp [TablesOk, fullState, State.reset]

theorem fullState_read {a : Nat} (h : a < 2352) : fullState.buf.read a = some 0x00#8 := by
  simp only [fullState]; exact read_zeros h

theorem fullState_holds (lo hi : Nat) (h : hi < 2352) : Holds fullState lo hi (fun _ => 0x00#8) :=
  fun _ _ ha => fullState_read (Nat.lt_of_le_of_lt ha h)

theorem reset_tablesOk : TablesOk State.reset := by simp [TablesOk, State.reset]

/-- DecodeEncodeRoundTrip, at the largest operands. -/
theorem witness_wellFormed : (Instr.edc 4095 4095).wellFormed = true := by decide

/-- DecodedCommandReencodes. -/
theorem witness_decoded : decode 0x930FFF02#32 = .command (.edc 4095 2352) := by decide

/-- StepRunsDecodedCommand, its three clauses; IllegalWordWritesNothing, its two. -/
theorem witness_turns :
    EngineNext (placeCommand 0x00000001#32 fullState) 0x00000001#32 ∧
      decode 0x00000001#32 = .command .init ∧
      HostNext (hostState .wait) .wait [] ∧
      (Running State.reset ∧ engineTurn State.reset = false ∧ State.reset.host = []) ∧
      ((0x00000107#32).toNat % 256 ≠ 2 ∧ (0x00000107#32).toNat / 256 ≠ 0) ∧
      (HostNext (hostState (.write 0x1000#16 4 0x00000107#32)) (.write 0x1000#16 4 0x00000107#32) [] ∧
        (hostState (.write 0x1000#16 4 0x00000107#32)).busy = false ∧
        (hostState (.write 0x1000#16 4 0x00000107#32)).fatal = false) ∧
      EngineNext (placeCommand 0x00000107#32 State.reset) 0x00000107#32 := by
  decide

/-- WaitReachesCompletion. -/
theorem witness_wait : Running (busyState .wait) ∧ (busyState .wait).busy = true ∧ (busyState .wait).host = [.wait] ∧ (busyState .wait).stall = 3 := by
  decide

/-- StepKeepsBlockConsistent: a state of the invariant with a command in flight, and a step that goes on from it. -/
theorem witness_inv :
    (placeCommand 0x00000007#32 { State.reset with dlen := some 0#32 }).Inv ∧
      ∃ t, step (placeCommand 0x00000007#32 { State.reset with dlen := some 0#32 }) = .next t := by
  refine ⟨⟨⟨List.Pairwise.nil, by simp [State.reset]⟩, reset_tablesOk, rfl, by simp, by simp [State.reset]⟩, ?_⟩
  exact ⟨complete .sizeMismatch _, rfl⟩

/-- TablesStayUntilReset: TV = 1 and a step that goes on. -/
theorem witness_tv :
    ({ State.reset with tv := true } : State).tv = true ∧
      step { State.reset with tv := true } = .next { State.reset with tv := true } := ⟨rfl, rfl⟩

/-- FatalStaysClear: a state with FATAL and the record clear, and a step that goes on. -/
theorem witness_fatal :
    State.reset.fatal = false ∧ Fault.invariant ∉ State.reset.faults ∧ State.reset.err ≠ .invariant ∧
      step State.reset = .next State.reset := ⟨rfl, by decide, by decide, rfl⟩

/-- BusyAndDoneChangeOnlyHere: a step of each kind its clauses speak of goes on and meets no model fault. -/
theorem witness_busy_done :
    (engineTurn (placeCommand 0x00000107#32 State.reset) = true ∧
        ∃ t, step (placeCommand 0x00000107#32 State.reset) = .next t ∧ Running t) ∧
      (HostNext (hostState (.write 0x1000#16 4 1#32)) (.write 0x1000#16 4 1#32) [] ∧
        ∃ t, step (hostState (.write 0x1000#16 4 1#32)) = .next t ∧ Running t) ∧
      (HostNext (busyState .reset) .reset [] ∧ ∃ t, step (busyState .reset) = .next t ∧ Running t) ∧
      (HostNext (busyState (.read 0x1004#16 4)) (.read 0x1004#16 4) [] ∧
        ∃ t, step (busyState (.read 0x1004#16 4)) = .next t ∧ Running t) :=
  ⟨⟨rfl, _, rfl, rfl⟩, ⟨⟨rfl, rfl, rfl⟩, _, rfl, rfl⟩, ⟨⟨rfl, rfl, rfl⟩, _, rfl, rfl⟩, ⟨⟨rfl, rfl, rfl⟩, _, rfl, rfl⟩⟩

/-- CommandWritesOnlyItsCells and its clauses: HDR goes on and writes. -/
theorem witness_frame : ∃ t, exec .hdr fullState = .next t ∧ t.buf.read 15 = some 0x01#8 := by
  have h : hdrEffect fullState = .ok (writeHeader 0 fullState) := hdrEffect_of_lba (l := 0#32) rfl (Nat.zero_le _)
  refine ⟨complete .none (writeHeader 0 fullState), by rw [exec, execHdr, h, finish_ok], ?_⟩
  rw [complete_buf, writeHeader, writeBuf_buf, Memory.read_writeBytes_outside _ (by omega), writeBuf_buf, Memory.read_writeBytes]
  decide

/-- CommandWritesOnlyItsCells, the clauses about tables (INIT from TV = 1) and EDC_RESULT. -/
theorem witness_frame_init :
    exec .init { State.reset with tv := true } = .next (complete .none { State.reset with tv := true }) := rfl

/-- ErrorHasNoEffect. -/
theorem witness_error : (∃ t, exec (.edc 2352 1) State.reset = .next t ∧ t.err ≠ .none) ∧
    engineTurn (placeCommand 0x00000107#32 State.reset) = true ∧
    ∃ t, step (placeCommand 0x00000107#32 State.reset) = .next t ∧ Running t ∧ t.err ≠ .none :=
  ⟨⟨complete .range State.reset, rfl, by decide⟩, rfl, complete .illegalCmd _, rfl, rfl, by decide⟩

/-- UnwrittenInputFaults, clause by clause: from reset, with one cell written, and with the registers written or not. -/
theorem witness_unwritten :
    TablesOk (bufState [0x31#8]) ∧
      (0 + 2 ≤ 2352 ∧ 1 < 2 ∧ (bufState [0x31#8]).buf.read (0 + 1) = none ∧
        ∀ j < 1, ((bufState [0x31#8]).buf.read (0 + j)).isSome) ∧
      ((bufState [0x31#8]).buf.read 1 = none ∧ ∀ j < 1, ((bufState [0x31#8]).buf.read j).isSome) ∧
      (12 ≤ 2075 ∧ 2075 ≤ 2075 ∧ (bufState [0x31#8]).buf.read 2075 = none) ∧
      (12 ≤ 2247 ∧ 2247 ≤ 2247 ∧ (bufState [0x31#8]).buf.read 2247 = none) ∧
      (bufState [0x31#8]).lba = none ∧ (bufState [0x31#8]).dlen = none ∧
      (TablesOk { State.reset with dlen := some 2048#32 } ∧ ({ State.reset with dlen := some 2048#32 } : State).lba = none) ∧
      (449849 ≤ 449849 ∧ 0 < 2048 ∧
        ({ State.reset with dlen := some 2048#32, lba := some 449849#32 } : State).buf.read (16 + 0) = none) := by
  refine ⟨reset_tablesOk, ?_, ?_, ?_, ?_, rfl, rfl, ⟨reset_tablesOk, rfl⟩, ?_⟩ <;> decide +kernel

/-- InitIsOptional: INIT and then EDC of the empty range, which completes normally either way. -/
theorem witness_init_optional :
    (Instr.edc 0 0) ≠ .hdr ∧ TablesOk State.reset ∧ (∃ u, exec .init State.reset = .next u) ∧
      ∃ t, exec (.edc 0 0) State.reset = .next t ∧ t.err = .none := by
  obtain ⟨t, -, ht⟩ := ensureTables_of_ok reset_tablesOk
  refine ⟨by decide, reset_tablesOk, ⟨_, by simp [exec, execInit, ht]; rfl⟩, ?_⟩
  refine ⟨complete .none (setEdcResult 0#32 (setTables t State.reset)), ?_, rfl⟩
  simp [exec, execEdc, edcEffect, ht, readRange, calcEdc]

/-- InitBuildsTables, with TV = 0; the built state it leads to meets the clause about TV = 1. -/
theorem witness_init : TablesOk State.reset ∧ ∃ t, buildTables = some t ∧ TablesOk (setTables t State.reset) ∧
    (setTables t State.reset).tv = true := by
  obtain ⟨t, hb, -⟩ := ensureTables_of_ok reset_tablesOk
  exact ⟨reset_tablesOk, t, hb, by simp [TablesOk, hb], rfl⟩

/-- LogTablesAreInverse. -/
theorem witness_build : ∃ t, buildTables = some t := (ensureTables_of_ok reset_tablesOk).imp fun _ h => h.1

/-- FieldQuotientUndoesProduct. -/
theorem witness_divisor : (0x8F#8 : Byte) ≠ 0#8 := by decide

/-- ChecksumIsLinear. -/
theorem witness_equal_length : ([0x01#8] : List Byte).length = ([0x80#8] : List Byte).length := rfl

/-- EdcComputesRange, at the last cells and for the empty range at 2352; EdcRangeError just beyond. -/
theorem witness_edc :
    TablesOk fullState ∧ 2351 + 1 ≤ 2352 ∧ 2352 + 0 ≤ 2352 ∧ 2352 < 2352 + 1 ∧
      ∀ k < 1, fullState.buf.read (2351 + k) = some ((fun _ => 0x00#8) (2351 + k)) :=
  ⟨fullState_tablesOk, by omega, by omega, by omega, fun k hk => fullState_read (by omega)⟩

/-- EdcwWritesSectorEdc. -/
theorem witness_edcw : TablesOk fullState ∧ Holds fullState 0 2063 (fun _ => 0x00#8) :=
  ⟨fullState_tablesOk, fullState_holds _ _ (by omega)⟩

/-- PparWritesCheckSymbols and PparColumnsAreCodewords. -/
theorem witness_ppar : TablesOk fullState ∧ Holds fullState 12 2075 (fun _ => 0x00#8) ∧
    ∃ t, exec .ppar fullState = .next t := by
  have hd := fullState_holds 12 2075 (by omega)
  obtain ⟨tb, htb, hens⟩ := ensureTables_of_ok fullState_tablesOk
  obtain ⟨t, ht, -⟩ := parityPass (s := setTables tb fullState) (base := 2076) (half := 86) (fun k => 19 + k)
    (fun i k => 12 + 2 * i + 86 * k) 24 htb hd 43 (by omega) (by intro i hi k hk; omega)
  refine ⟨fullState_tablesOk, hd, complete .none t, ?_⟩
  have h : pparEffect fullState = .ok t := by rw [pparEffect, hens]; exact ht
  rw [exec, execPpar, h, finish_ok]

/-- QparWritesCheckSymbols and QparDiagonalsAreCodewords. -/
theorem witness_qpar : TablesOk fullState ∧ Holds fullState 12 2247 (fun _ => 0x00#8) ∧
    ∃ t, exec .qpar fullState = .next t := by
  have hd := fullState_holds 12 2247 (by omega)
  obtain ⟨tb, htb, hens⟩ := ensureTables_of_ok fullState_tablesOk
  obtain ⟨t, ht, -⟩ := parityPass (s := setTables tb fullState) (base := 2248) (half := 52) (fun k => k) qOffset 43 htb hd 26
    (by omega) (by intro i hi k hk; unfold qOffset; omega)
  refine ⟨fullState_tablesOk, hd, complete .none t, ?_⟩
  have h : qparEffect fullState = .ok t := by rw [qparEffect, hens, eff_bind_ok, foldlM_qSteps]; exact ht
  rw [exec, execQpar, h, finish_ok]

/-- HdrWritesFixedFields, at the largest legal LBA. -/
theorem witness_hdr : ({ State.reset with lba := some 449849#32 } : State).lba = some 449849#32 ∧
    (449849#32).toNat ≤ 449849 := by decide

/-- LbaRangeError, at the smallest illegal LBA. -/
theorem witness_lba_range :
    let s := ({ State.reset with lba := some 449850#32, dlen := some 2048#32 } : State)
    s.lba = some 449850#32 ∧ 449849 < (449850#32).toNat ∧ s.dlen = some 2048#32 := by decide

/-- SizeMismatchError. -/
theorem witness_size : ({ State.reset with dlen := some 2047#32 } : State).dlen = some 2047#32 ∧ (2047#32) ≠ 2048#32 := by
  decide

/-- EncodeBuildsSector; EncodeEqualsCommandSequence, EncodeDependsOnlyOnInputs and EncodeTwiceIsEncode need an ENCODE that
completes normally, which `fullState` has: each of its four effects succeeds. -/
theorem witness_encode : TablesOk fullState ∧ fullState.dlen = some 2048#32 ∧ fullState.lba = some 0#32 ∧
    (0#32).toNat ≤ 449849 ∧ Holds fullState 16 2063 (fun _ => 0x00#8) :=
  ⟨fullState_tablesOk, rfl, rfl, by decide, fullState_holds _ _ (by omega)⟩

theorem some_getD {o : Option Byte} (h : o.isSome = true) : o = some (o.getD 0#8) := by
  obtain ⟨b, rfl⟩ := Option.isSome_iff_exists.1 h
  rfl

/-- ENCODE completes normally from every state with its inputs and every BUF cell written. -/
theorem encode_completes {s : State} (hs : TablesOk s) (hdlen : s.dlen = some 2048#32) (hlba : s.lba = some 0#32)
    (hbuf : ∀ a, a < 2352 → (s.buf.read a).isSome) : ∃ t, exec .encode s = .next t ∧ t.err = .none := by
  have hh : ∀ a, a < 2352 → ((writeHeader 0 s).buf.read a).isSome := by
    intro a ha
    rw [writeHeader, writeBuf_buf, Memory.read_writeBytes, writeBuf_buf, Memory.read_writeBytes]
    split
    · next h =>
      rw [List.getElem?_eq_getElem (by omega), Option.isSome_some]
    · split
      · next h =>
        rw [List.getElem?_eq_getElem (by omega), Option.isSome_some]
      · exact hbuf a ha
  obtain ⟨tb, htb, hens⟩ := ensureTables_of_ok hs
  have hhdr : hdrEffect (setTables tb s) = .ok (setTables tb (writeHeader 0 s)) := by
    rw [← writeHeader_setTables]
    exact hdrEffect_of_lba (l := 0#32) hlba (Nat.zero_le _)
  generalize writeHeader 0 s = w at hh hhdr
  have hens' : ∀ s : State, s.tv = true → ensureTables s = .ok s := fun s h => by rw [ensureTables, if_pos h]
  have hr : readRange (setTables tb w) 0 2064 = .ok (bytesFrom _ 0 2064) :=
    readRange_of_read (d := fun a => (w.buf.read a).getD 0#8) fun t ht => by
      rw [setTables_buf]
      exact some_getD (hh _ (by omega))
  have hc := calcEdc_of_build (s := setTables tb w) htb
    (bytesFrom (fun a => (w.buf.read a).getD 0#8) 0 2064)
  generalize hx : bytesFrom (fun a => (w.buf.read a).getD 0#8) 0 2064 = x at hr hc
  have he : edcwEffect (setTables tb w) = .ok (setEdcResult (edcOf x)
      (writeBuf (setTables tb w) 2064
        [wordByte (edcOf x) 0, wordByte (edcOf x) 1, wordByte (edcOf x) 2, wordByte (edcOf x) 3])) := by
    rw [edcwEffect, hens' _ rfl, eff_bind_ok, hr, eff_bind_ok, hc, eff_bind_ok, eff_pure]
  generalize hu : setEdcResult (edcOf x) (writeBuf (setTables tb w) 2064
        [wordByte (edcOf x) 0, wordByte (edcOf x) 1, wordByte (edcOf x) 2, wordByte (edcOf x) 3]) = u at he
  have hub : buildTables = some u.tables := by rw [← hu]; exact htb
  have hut : u.tv = true := by rw [← hu]; rfl
  have hud : Holds u 0 2351 fun a => (u.buf.read a).getD 0#8 := by
    intro a h1 h2
    have ha : (u.buf.read a).isSome := by
      rw [← hu, setEdcResult_buf, writeBuf_buf, Memory.read_writeBytes]
      split
      · next h => rw [List.getElem?_eq_getElem (by omega), Option.isSome_some]
      · rw [setTables_buf]; exact hh a (by omega)
    exact some_getD ha
  obtain ⟨v, hv, hvs, hvo, hvi⟩ := parityPass (s := u) (d := fun a => (u.buf.read a).getD 0#8) (base := 2076) (half := 86)
    (fun k => 19 + k) (fun i k => 12 + 2 * i + 86 * k) 24 hub (fun a h1 h2 => hud a (by omega) (by omega)) 43 (by omega)
    (by intro i hi k hk; omega)
  have hp : pparEffect u = .ok v := by rw [pparEffect, hens' _ hut]; exact hv
  have hvd : Holds v 12 (2248 - 1) fun a => (v.buf.read a).getD 0#8 := by
    intro a h1 h2
    have ha : (v.buf.read a).isSome := by
      by_cases h : a < 2076
      · rw [hvo a (.inl h), hud a (by omega) (by omega)]; rfl
      · by_cases h' : a < 2162
        · have := (hvi ((a - 2076) / 2) (by omega) ((a - 2076) % 2) (by omega)).1
          rw [show 2076 + 2 * ((a - 2076) / 2) + (a - 2076) % 2 = a by omega] at this
          rw [this]; rfl
        · have := (hvi ((a - 2162) / 2) (by omega) ((a - 2162) % 2) (by omega)).2
          rw [show 2076 + 86 + 2 * ((a - 2162) / 2) + (a - 2162) % 2 = a by omega] at this
          rw [this]; rfl
    exact some_getD ha
  obtain ⟨z, hz, -⟩ := parityPass (s := v) (base := 2248) (half := 52) (fun k => k) qOffset 43 (by rw [hvs]; exact hub) hvd 26
    (by omega) (by intro i hi k hk; unfold qOffset; omega)
  have hq : qparEffect v = .ok z := by
    rw [qparEffect, hens' _ (by rw [hvs]; exact hut), eff_bind_ok, foldlM_qSteps]; exact hz
  refine ⟨complete .none z, ?_, rfl⟩
  have heff : encodeEffect s = .ok z := by
    have hd : readDlen s = .ok 2048#32 := by rw [readDlen, hdlen, valueAt_some]
    have hl : readLba s = .ok 0#32 := by rw [readLba, hlba, valueAt_some]
    have hcl : checkLength 2048#32 = .ok () := rfl
    have hcb : checkLba 0#32 = .ok () := rfl
    rw [encodeEffect, hd, eff_bind_ok, hcl, eff_bind_ok, hl, eff_bind_ok, hcb, eff_bind_ok, hens, eff_bind_ok, hhdr, eff_bind_ok,
      he, eff_bind_ok, hp, eff_bind_ok, hq]
  rw [exec, execEncode, heff, finish_ok]

/-- A state with the inputs of `fullState` and otherwise different: BUF[0] and BUF[2100], DONE, EDC_RESULT, the host. -/
def otherState : State :=
  { fullState with
    buf := ((fullState.buf.write 0 0xAA#8).write 2100 0x55#8), done := true, edcResult := some 7#32, host := [.check] }

/-- EncodeTwiceIsEncode: an ENCODE that completes normally. EncodeDependsOnlyOnInputs: two different states with the same
inputs, and an ENCODE that completes normally from each. -/
theorem witness_encode_completes :
    (∃ t, exec .encode fullState = .next t ∧ t.err = .none) ∧ (∃ t, exec .encode otherState = .next t ∧ t.err = .none) ∧
      TablesOk otherState ∧ fullState.lba = otherState.lba ∧
      (∀ a, 16 ≤ a → a ≤ 2063 → fullState.buf.read a = otherState.buf.read a) ∧
      fullState.buf.read 0 ≠ otherState.buf.read 0 := by
  have hr : ∀ a, otherState.buf.read a = if a = 2100 then some 0x55#8 else if a = 0 then some 0xAA#8 else
      fullState.buf.read a := by
    intro a
    rw [otherState, Memory.read_write, Memory.read_write]
  have ho : TablesOk otherState := fullState_tablesOk
  refine ⟨encode_completes fullState_tablesOk rfl rfl fun a h => by rw [fullState_read h, Option.isSome_some],
    encode_completes ho rfl rfl fun a h => ?_, ho, rfl, fun a h1 h2 => ?_, ?_⟩
  · rw [hr]
    split_ifs
    · rfl
    · rfl
    · rw [fullState_read h, Option.isSome_some]
  · rw [hr, if_neg (by omega), if_neg (by omega)]
  · rw [hr, if_neg (by omega), if_pos rfl, fullState_read (by omega)]
    decide

/-- CmdWriteAccepts: idle, under FATAL, while BUSY, and the read of CMD. -/
theorem witness_cmd :
    (HostNext (hostState (.write 0x1000#16 4 1#32)) (.write 0x1000#16 4 1#32) [] ∧
        (hostState (.write 0x1000#16 4 1#32)).busy = false ∧ (hostState (.write 0x1000#16 4 1#32)).fatal = false) ∧
      (HostNext { hostState (.write 0x1000#16 4 1#32) with fatal := true } (.write 0x1000#16 4 1#32) []) ∧
      (HostNext (busyState (.write 0x1000#16 4 1#32)) (.write 0x1000#16 4 1#32) [] ∧
        (busyState (.write 0x1000#16 4 1#32)).busy = true) ∧
      HostNext (hostState (.read 0x1000#16 4)) (.read 0x1000#16 4) [] := by
  decide

/-- StatusWordFields: the invariant at reset, and a write of STATUS. -/
theorem witness_status : State.reset.Inv ∧ HostNext (hostState (.write 0x1004#16 4 0#32)) (.write 0x1004#16 4 0#32) [] :=
  ⟨⟨⟨List.Pairwise.nil, by simp [State.reset]⟩, reset_tablesOk, rfl, by simp [State.reset], by simp [State.reset]⟩, by decide⟩

/-- MalformedAccessFaults: a legal and an illegal access each way, at the edges of BUF and PQ_T. -/
theorem witness_access :
    HostNext (hostState (.read 0x95FC#16 4)) (.read 0x95FC#16 4) [] ∧ readPermitted 0x95FC#16 4 = true ∧
      HostNext (hostState (.read 0x9600#16 4)) (.read 0x9600#16 4) [] ∧ readPermitted 0x9600#16 4 = false ∧
      HostNext (hostState (.write 0x092F#16 1 0#32)) (.write 0x092F#16 1 0#32) [] ∧ writePermitted 0x092F#16 1 = true ∧
      HostNext (hostState (.write 0x0930#16 1 0#32)) (.write 0x0930#16 1 0#32) [] ∧ writePermitted 0x0930#16 1 = false := by
  decide +kernel

/-- BusyAccessIsHazard: each clause. -/
theorem witness_busy :
    (busyState (.read 0x092C#16 4)).busy = true ∧ HostNext (busyState (.read 0x092C#16 4)) (.read 0x092C#16 4) [] ∧
      readPermitted 0x092C#16 4 = true ∧ HostNext (busyState (.read 0x1004#16 4)) (.read 0x1004#16 4) [] ∧
      readPermitted 0x1004#16 4 = true ∧ HostNext (busyState (.write 0x100C#16 4 0#32)) (.write 0x100C#16 4 0#32) [] ∧
      writePermitted 0x100C#16 4 = true := by
  decide +kernel

/-- HostReadIsLittleEndian: a read of written cells at the end of BUF, one of STATUS while BUSY, one of an unwritten cell. -/
theorem witness_read :
    let s := { hostState (.read 0x092E#16 2) with buf := [(0x092E, 0x31#8), (0x092F, 0x32#8)] }
    HostNext s (.read 0x092E#16 2) [] ∧ readPermitted 0x092E#16 2 = true ∧ s.busy = false ∧
      (∀ k < 2, s.cell ((0x092E#16).toNat + k) = some (if k = 0 then 0x31#8 else 0x32#8)) ∧
      (HostNext (busyState (.read 0x1004#16 4)) (.read 0x1004#16 4) [] ∧ readableWhileBusy 0x1004#16 = true) ∧
      (∃ k < 1, (hostState (.read 0x0000#16 1)).cell ((0x0000#16).toNat + k) = none) := by
  decide +kernel

/-- HostWriteStoresBytes, at the last halfword of BUF. -/
theorem witness_write :
    HostNext (hostState (.write 0x092E#16 2 0x1234#32)) (.write 0x092E#16 2 0x1234#32) [] ∧
      (hostState (.write 0x092E#16 2 0x1234#32)).busy = false ∧ (0x092E#16).toNat % 2 = 0 ∧ (0x092E#16).toNat ≤ 0x092F := by
  decide

/-- RegisterWriteStoresWord, both registers. -/
theorem witness_register_write :
    HostNext (hostState (.write 0x1008#16 4 9#32)) (.write 0x1008#16 4 9#32) [] ∧
      HostNext (hostState (.write 0x100C#16 4 9#32)) (.write 0x100C#16 4 9#32) [] ∧
      (hostState (.write 0x1008#16 4 9#32)).busy = false ∧ (hostState (.write 0x100C#16 4 9#32)).busy = false := by
  decide

/-- ResetRestoresResetState: with a command in flight. -/
theorem witness_reset : HostNext (busyState .reset) .reset [] ∧ (busyState .reset).busy = true := by decide

/-- WaitAndCheckReadStatus: `wait` while BUSY and while idle, and `check`. -/
theorem witness_wait_check :
    HostNext (busyState .wait) .wait [] ∧ HostNext (hostState .wait) .wait [] ∧ HostNext (hostState .check) .check [] := by
  decide

/-- WindowStartsAtBlockBase: an address inside the window has an offset, whatever BLOCK_BASE is. -/
theorem witness_window : ∃ a, blockOffset Config.blockBase = some a := by
  rw [blockOffset, if_pos (by omega)]; exact ⟨_, rfl⟩

/-- ModelFaultIsRecordedForGood: a command and a host read that meet a fault, a step that goes on, and a run that has
ended. -/
theorem witness_model_fault :
    (EngineNext (placeCommand 0x00000006#32 State.reset) 0x00000006#32 ∧ decode 0x00000006#32 = .command .hdr ∧
        exec .hdr (placeCommand 0x00000006#32 State.reset) = .fault (.unwrittenRead .lba)) ∧
      (HostNext (hostState (.read 0x1000#16 4)) (.read 0x1000#16 4) [] ∧
        runStmt (.read 0x1000#16 4) (taken (hostState (.read 0x1000#16 4)) []) = .fault (.hostAccessFault 0x1000#16 4)) ∧
      step State.reset = .next State.reset ∧
      step (recordFault (.hostHazard 0x0000#16) State.reset) = .fault (.hostHazard 0x0000#16) :=
  ⟨⟨⟨rfl, rfl, rfl⟩, by decide, rfl⟩, ⟨⟨rfl, rfl, rfl⟩, rfl⟩, rfl, rfl⟩

end Sys2Proof.Tests
end

/-! ### The field product is additive (R9, R92) -/

namespace Sys2Proof.Machine

/-- Multiplication by a fixed polynomial is additive: each set bit of `c` contributes a shifted copy of the first factor,
and both the shift and the choice by a bit of `c` respect XOR. -/
theorem polyMul_xor_left (n : Nat) (a b : BitVec 15) (c : Byte) :
    polyMul n (a ^^^ b) c = polyMul n a c ^^^ polyMul n b c := by
  induction n generalizing a b c with
  | zero => simp [polyMul]
  | succ n ih =>
    rw [polyMul, polyMul, polyMul, BitVec.shiftLeft_xor_distrib, ih]
    split
    · ac_rfl
    · simp

/-- Reduction is additive: bit `8 + k` of a sum is the sum of the bits, so GF_POLY is subtracted from the sum as often,
modulo two, as from the two parts. -/
theorem polyReduce_xor (n : Nat) (p q : BitVec 15) :
    polyReduce n (p ^^^ q) = polyReduce n p ^^^ polyReduce n q := by
  induction n generalizing p q with
  | zero => rfl
  | succ k ih =>
    have clearBit_xor (r : BitVec 15) :
        (if (p ^^^ q).getLsbD (8 + k) then p ^^^ q ^^^ r else p ^^^ q) =
          (if p.getLsbD (8 + k) then p ^^^ r else p) ^^^ (if q.getLsbD (8 + k) then q ^^^ r else q) := by
      rw [BitVec.getLsbD_xor]
      cases p.getLsbD (8 + k) <;> cases q.getLsbD (8 + k)
      · simp
      · simp [BitVec.xor_assoc]
      · simp only [Bool.xor_false, if_true, Bool.false_eq_true, if_false]; ac_rfl
      · have cancel : p ^^^ r ^^^ (q ^^^ r) = p ^^^ q ^^^ (r ^^^ r) := by ac_rfl
        simp [cancel]
    rw [polyReduce, polyReduce, polyReduce, clearBit_xor, ih]

/-- Settles O22: the product and the reduction are both additive, and widening and truncation respect XOR. -/
theorem fieldProductDistributes : Obligations.FieldProductDistributes := by
  intro a b c
  rw [gfMul, BitVec.setWidth_xor, polyMul_xor_left, polyReduce_xor, BitVec.setWidth_xor, gfMul, gfMul]

end Sys2Proof.Machine

/-! ### What one step can do to the block (R32, R42, R57, R190) -/

namespace Sys2Proof.Machine

/-- A completion step that goes on ends with the completion update of an effect inside some command's frame, and its
outcome is never INVARIANT: the table build's division check cannot fail (R42, R104). -/
theorem engineStep_completes {s t : State} (h : engineStep s = .next t) :
    ∃ w e s', e ≠ .invariant ∧ EffFrame w s s' ∧ t = complete e s' := by
  obtain ⟨_, _, ⟨i, _, hi⟩ | ⟨_, _, rfl⟩⟩ := engineStep_eq_next h
  · obtain ⟨s', _, rfl, hframe⟩ | ⟨herr, ht⟩ := exec_eq_next hi
    · exact ⟨_, _, s', by decide, hframe, rfl⟩
    · exact ⟨writesCell i, t.err, s, by rcases herr with h | h | h <;> simp [h], .refl _ s, ht⟩
  · exact ⟨fun _ => false, _, s, by decide, .refl _ s, rfl⟩

/-- The only offset of the CMD row that a permitted access can name is CMD itself (R51, R58). -/
theorem cmd_of_writePermitted {a : Offset} {n : Nat} (hr : regionOf a = .cmd) (hp : writePermitted a n = true) :
    a = 0x1000#16 ∧ n = 4 := by
  have hrange : 0x1000 ≤ a.toNat ∧ a.toNat ≤ 0x1003 := by
    simp only [regionOf, regionAt, addressMap, lookupRegion] at hr
    split_ifs at hr
    assumption
  simp only [writePermitted, hr, Region.writable, Region.widthOk, aligned, Bool.true_and, Bool.and_eq_true,
    beq_iff_eq] at hp
  obtain ⟨rfl, halign⟩ := hp
  exact ⟨BitVec.eq_of_toNat_eq (by simp only [BitVec.toNat_ofNat]; omega), rfl⟩

/-- What a host statement other than a CMD write and reset can change: BUF, which keeps its form, the registers LBA and
DLEN, and the host's own side. -/
structure HostFrame (s t : State) : Prop where
  rest : t = { s with buf := t.buf, lba := t.lba, dlen := t.dlen, host := t.host, reads := t.reads,
                      checkFailed := t.checkFailed }
  wf : s.buf.wf → t.buf.wf

/-- What a host statement that goes on does to the block: a CMD write (R32), reset (R190), or nothing outside
`HostFrame`. -/
theorem runStmt_cases {st : HostStmt} {s t : State} (h : runStmt st s = .next t) :
    (∃ w, st = .write 0x1000#16 4 w ∧ s.busy = false ∧ t = accept w s) ∨ (st = .reset ∧ t = resetBlock s) ∨
      HostFrame s t := by
  have hst := runStmt_eq_next h
  cases st with
  | read a n => obtain ⟨v, _, rfl⟩ := hst; exact .inr (.inr ⟨rfl, id⟩)
  | wait =>
    obtain ⟨v, _, rfl⟩ := hst
    split <;> exact .inr (.inr ⟨rfl, id⟩)
  | check => obtain ⟨v, _, rfl⟩ := hst; exact .inr (.inr ⟨rfl, id⟩)
  | reset => exact .inr (.inl ⟨rfl, hst⟩)
  | write a n v =>
    obtain ⟨hp, hbusy, ⟨hr, rfl⟩ | ⟨_, rfl⟩ | ⟨_, rfl⟩ | ⟨hr, rfl⟩⟩ := memWrite_eq_ok hst
    · obtain ⟨rfl, rfl⟩ := cmd_of_writePermitted hr hp
      exact .inl ⟨v, rfl, hbusy, rfl⟩
    · exact .inr (.inr ⟨rfl, id⟩)
    · exact .inr (.inr ⟨rfl, id⟩)
    · simp only [writePermitted, hr, Bool.and_eq_true] at hp
      obtain ⟨⟨_, hwidth⟩, halign⟩ := hp
      have inside := bufAccess_inside hr hwidth halign
      exact .inr (.inr ⟨rfl, fun hs => Memory.writeBytes_wf hs (by simpa [Config.sectorBytes] using inside)⟩)

theorem accept_of_fatal {s : State} (w : Word) (h : s.fatal = true) : accept w s = refuseUnderFatal s := if_pos h

theorem accept_of_not_fatal {s : State} (w : Word) (h : s.fatal = false) :
    accept w s = { latch w s with accepted := s.accepted + 1, stall := Config.latency s.accepted } := by
  simp [accept, h]

theorem busy_of_engineTurn {s : State} (h : engineTurn s = true) : s.busy = true := by
  simp only [engineTurn, Bool.and_eq_true] at h
  exact h.1

/-! ### The invariant of the block -/

/-- Settles O10, a clause of the invariant for each field. -/
theorem resetIsConsistent : Obligations.ResetIsConsistent where
  buf := ⟨List.Pairwise.nil, by simp [State.reset]⟩
  tables := rfl
  pend := rfl
  busyDone := by simp [State.reset]
  fatal := by simp [State.reset]

/-- The completion update of an effect keeps the invariant, if the command ran with FATAL = 0. -/
theorem State.Inv.complete {w : Nat → Bool} {s s' : State} (hs : s.Inv) (hfatal : s.fatal = false)
    (hframe : EffFrame w s s') (e : Err) : (complete e s').Inv where
  buf := hframe.wf hs.buf
  tables := hframe.tablesOk hs.tables
  pend := rfl
  busyDone := by simp
  fatal := by
    have same : s'.fatal = s.fatal := by rw [hframe.rest]
    simp [same, hfatal]

/-- A CMD write while BUSY = 0 keeps the invariant: acceptance sets BUSY as it fills PEND, and only while FATAL = 0. -/
theorem State.Inv.accept {s : State} (hs : s.Inv) (hbusy : s.busy = false) (w : Word) : (accept w s).Inv := by
  cases hfatal : s.fatal with
  | true =>
    rw [accept_of_fatal w hfatal]
    exact ⟨hs.buf, hs.tables, hs.pend, by simp [hbusy], hs.fatal⟩
  | false =>
    rw [accept_of_not_fatal w hfatal]
    exact ⟨hs.buf, hs.tables, rfl, by simp, by simp [hfatal]⟩

theorem State.Inv.hostFrame {s t : State} (hs : s.Inv) (h : HostFrame s t) : t.Inv := by
  obtain ⟨hrest, hwf⟩ := h
  have hbuf := hwf hs.buf
  rw [hrest]
  exact ⟨hbuf, hs.tables, hs.pend, hs.busyDone, hs.fatal⟩

theorem State.Inv.taken {s : State} (hs : s.Inv) (rest : List HostStmt) : (taken s rest).Inv :=
  ⟨hs.buf, hs.tables, hs.pend, hs.busyDone, hs.fatal⟩

theorem State.Inv.recordFault {s : State} (hs : s.Inv) (f : Fault) : (recordFault f s).Inv :=
  ⟨hs.buf, hs.tables, hs.pend, hs.busyDone, hs.fatal⟩

theorem State.Inv.resetBlock (s : State) : (resetBlock s).Inv :=
  ⟨resetIsConsistent.buf, resetIsConsistent.tables, resetIsConsistent.pend, resetIsConsistent.busyDone,
    resetIsConsistent.fatal⟩

/-- A command runs only while BUSY = 1, where the invariant excludes FATAL. -/
theorem State.Inv.not_fatal_of_engineTurn {s : State} (hs : s.Inv) (h : engineTurn s = true) : s.fatal = false := by
  cases hfatal : s.fatal with
  | false => rfl
  | true => exact absurd (hs.fatal hfatal).1 (by simp [busy_of_engineTurn h])

/-- Settles O9, by the kinds of event: a completion step, an idle step, a host statement, or the record of a fault. -/
theorem stepKeepsBlockConsistent : Obligations.StepKeepsBlockConsistent := by
  intro s t hs hstep
  obtain ⟨_, hevent | ⟨f, _, rfl⟩⟩ := step_eq_next hstep
  · obtain ⟨hturn, hengine⟩ | ⟨_, _, rfl⟩ | ⟨_, st, rest, _, hstmt⟩ := event_eq_next hevent
    · obtain ⟨w, e, s', _, hframe, rfl⟩ := engineStep_completes hengine
      exact hs.complete (hs.not_fatal_of_engineTurn hturn) hframe e
    · exact hs
    · have hs := hs.taken rest
      obtain ⟨w, _, hbusy, rfl⟩ | ⟨_, rfl⟩ | hframe := runStmt_cases hstmt
      · exact hs.accept hbusy w
      · exact .resetBlock _
      · exact hs.hostFrame hframe
  · exact hs.recordFault f

/-! ### FATAL is never set (R37, R104) -/

/-- No trace of INVARIANT: FATAL = 0, no Invariant in the fault record, and ERR not INVARIANT. -/
def State.NoInvariantError (s : State) : Prop :=
  s.fatal = false ∧ Fault.invariant ∉ s.faults ∧ s.err ≠ .invariant

theorem State.NoInvariantError.accept {s : State} (hs : s.NoInvariantError) (w : Word) :
    (accept w s).NoInvariantError := by
  obtain ⟨hfatal, hfaults, _⟩ := hs
  rw [accept_of_not_fatal w hfatal]
  exact ⟨hfatal, hfaults, by simp⟩

theorem State.NoInvariantError.complete {w : Nat → Bool} {s s' : State} (hs : s.NoInvariantError)
    (hframe : EffFrame w s s') {e : Err} (he : e ≠ .invariant) : (complete e s').NoInvariantError := by
  obtain ⟨hfatal, hfaults, _⟩ := hs
  rw [hframe.rest]
  exact ⟨hfatal, hfaults, he⟩

/-- A fault that ends the run is not Invariant. -/
theorem State.NoInvariantError.recordFault {s : State} (hs : s.NoInvariantError) {f : Fault} (hf : f.endsRun = true) :
    (recordFault f s).NoInvariantError := by
  obtain ⟨hfatal, hfaults, herr⟩ := hs
  refine ⟨hfatal, ?_, herr⟩
  simp only [recordFault_faults, List.mem_append, List.mem_singleton, not_or]
  exact ⟨hfaults, by rintro rfl; cases hf⟩

/-- Settles O13: a completion never ends with INVARIANT, acceptance clears ERR, and a recorded fault ended the run. -/
theorem fatalStaysClear : Obligations.FatalStaysClear := by
  constructor
  · obtain ⟨_, _, _, _, hb⟩ := buildTables_eq_some
    simp [hb]
  intro s t hfatal hfaults herr hstep
  have hs : s.NoInvariantError := ⟨hfatal, hfaults, herr⟩
  change t.NoInvariantError
  obtain ⟨_, hevent | ⟨f, hfault, rfl⟩⟩ := step_eq_next hstep
  · obtain ⟨_, hengine⟩ | ⟨_, _, rfl⟩ | ⟨_, st, rest, _, hstmt⟩ := event_eq_next hevent
    · obtain ⟨w, e, s', he, hframe, rfl⟩ := engineStep_completes hengine
      exact hs.complete hframe he
    · exact hs
    · have hs : (taken s rest).NoInvariantError := hs
      obtain ⟨w, _, _, rfl⟩ | ⟨_, rfl⟩ | hframe := runStmt_cases hstmt
      · exact hs.accept w
      · exact ⟨rfl, by simp [State.reset], by simp [State.reset]⟩
      · rw [hframe.rest]; exact hs
  · exact hs.recordFault (event_eq_fault hfault)

/-! ### BUSY and DONE (R34, R35) -/

/-- At the host's turn, a step that meets no model fault is the host's next statement. -/
theorem runStmt_of_hostNext {s t : State} {st : HostStmt} {rest : List HostStmt} (hstep : step s = .next t)
    (ht : Running t) (h : HostNext s st rest) : runStmt st (taken s rest) = .next t := by
  obtain ⟨_, hturn, hhost⟩ := h
  rw [← event_host hturn hhost]
  exact (event_of_step hstep ht).2

/-- Settles O14, a clause for each kind of step. -/
theorem busyAndDoneChangeOnlyHere : Obligations.BusyAndDoneChangeOnlyHere := by
  intro s t hstep ht
  obtain ⟨hs, hevent⟩ := event_of_step hstep ht
  refine ⟨fun hturn => ?_, fun w rest hnext => ?_, fun rest hnext => ?_, fun hturn hcmd hreset => ?_⟩
  · rw [event_engine hturn] at hevent
    obtain ⟨_, _, _, _, _, rfl⟩ := engineStep_completes hevent
    exact ⟨rfl, rfl⟩
  · obtain ⟨_, hbusy, ⟨_, rfl⟩ | ⟨hr, _⟩ | ⟨hr, _⟩ | ⟨hr, _⟩⟩ :=
      memWrite_eq_ok (runStmt_eq_next (runStmt_of_hostNext hstep ht hnext))
    · refine ⟨hbusy, fun hfatal => ?_, fun hfatal => ?_⟩
      · rw [accept_of_not_fatal (s := taken s rest) w hfatal]; exact ⟨rfl, rfl⟩
      · rw [accept_of_fatal (s := taken s rest) w hfatal]; exact ⟨hbusy, rfl⟩
    all_goals exact absurd hr (by decide)
  · have hstmt : t = resetBlock (taken s rest) := runStmt_eq_next (runStmt_of_hostNext hstep ht hnext)
    rw [hstmt]; exact ⟨rfl, rfl⟩
  · obtain ⟨h, _⟩ | ⟨_, _, rfl⟩ | ⟨_, st, rest, hhost, hstmt⟩ := event_eq_next hevent
    · simp [hturn] at h
    · exact ⟨rfl, rfl⟩
    · obtain ⟨w, rfl, _⟩ | ⟨rfl, _⟩ | hframe := runStmt_cases hstmt
      · exact absurd ⟨hs, hturn, hhost⟩ (hcmd 4 w rest)
      · exact absurd ⟨hs, hturn, hhost⟩ (hreset rest)
      · rw [hframe.rest]; exact ⟨rfl, rfl⟩

end Sys2Proof.Machine

/-! ### One step, by whose turn it is (R42, R62, R177) -/

namespace Sys2Proof.Machine

theorem step_of_hostNext {s : State} {st : HostStmt} {rest : List HostStmt} (h : HostNext s st rest) :
    step s = recordOutcome s (runStmt st (taken s rest)) := by
  obtain ⟨hs, hturn, hhost⟩ := h
  rw [step_of_running hs, event_host hturn hhost]

theorem step_of_engineNext {s : State} {w : Word} {i : Instr} (h : EngineNext s w) (hi : decode w = .command i) :
    step s = recordOutcome s (exec i s) := by
  obtain ⟨hs, hturn, hpend⟩ := h
  rw [step_of_running hs, event_engine hturn, engineStep, hpend]
  simp only [decodeBytes_wordBytes, hi]

theorem step_of_idle {s : State} (hs : Running s) (hturn : engineTurn s = false) (hhost : s.host = []) :
    step s = .next s := by
  rw [step_of_running hs, event, hturn, if_neg (by simp), hostStep, hhost]
  rfl

/-- Settles O6, by whose turn it is. -/
theorem stepRunsDecodedCommand : Obligations.StepRunsDecodedCommand := by
  refine ⟨fun s w i hnext hi => ?_, fun s st rest hnext => ?_, fun s => step_of_idle⟩
  · rw [step_of_engineNext hnext hi]
    cases exec i s <;> rfl
  · rw [step_of_hostNext hnext]
    cases runStmt st (taken s rest) <;> rfl

/-- A host statement that meets a model fault records it. -/
theorem meetsFault_of_runStmt {s : State} {st : HostStmt} {rest : List HostStmt} {f : Fault} (h : HostNext s st rest)
    (hf : runStmt st (taken s rest) = .fault f) : MeetsFault s f :=
  ⟨recordFault f s, by rw [step_of_hostNext h, hf, recordOutcome], rfl⟩

/-- A permitted host write goes on. -/
theorem step_of_memWrite {s t : State} {a : Offset} {n : Nat} {v : Word} {rest : List HostStmt}
    (h : HostNext s (.write a n v) rest) (hw : memWrite (taken s rest) a n v = .ok t) : step s = .next t := by
  rw [step_of_hostNext h, runStmt, hw, recordOutcome]

/-- A host write that faults records the fault. -/
theorem meetsFault_of_memWrite {s : State} {a : Offset} {n : Nat} {v : Word} {rest : List HostStmt} {f : Fault}
    (h : HostNext s (.write a n v) rest) (hw : memWrite (taken s rest) a n v = .error f) : MeetsFault s f :=
  meetsFault_of_runStmt h (by rw [runStmt, hw])

/-- A host read that faults records the fault. -/
theorem meetsFault_of_memRead {s : State} {a : Offset} {n : Nat} {rest : List HostStmt} {f : Fault}
    (h : HostNext s (.read a n) rest) (hr : memRead (taken s rest) a n = .error f) : MeetsFault s f :=
  meetsFault_of_runStmt h (by rw [runStmt, hr])

/-! ### The registers on the bus (R51, R52, R56, R57) -/

theorem memWrite_not_permitted {a : Offset} {n : Nat} (s : State) (v : Word) (h : writePermitted a n = false) :
    memWrite s a n v = .error (.hostAccessFault a n) := if_pos h

theorem memRead_not_permitted {a : Offset} {n : Nat} (s : State) (h : readPermitted a n = false) :
    memRead s a n = .error (.hostAccessFault a n) := if_pos h

theorem memWrite_busy {s : State} {a : Offset} {n : Nat} (v : Word) (hp : writePermitted a n = true)
    (hbusy : s.busy = true) : memWrite s a n v = .error (.hostHazard a) := by
  simp [memWrite, hp, hbusy]

theorem memWrite_cmd {s : State} (v : Word) (hbusy : s.busy = false) : memWrite s 0x1000#16 4 v = .ok (accept v s) := by
  have hp : writePermitted 0x1000#16 4 = true := by decide
  have hr : regionOf 0x1000#16 = .cmd := by decide
  simp [memWrite, hp, hbusy, hr]

theorem memWrite_lba {s : State} (v : Word) (hbusy : s.busy = false) :
    memWrite s 0x1008#16 4 v = .ok { s with lba := some v } := by
  have hp : writePermitted 0x1008#16 4 = true := by decide
  have hr : regionOf 0x1008#16 = .lba := by decide
  simp [memWrite, hp, hbusy, hr]

theorem memWrite_dlen {s : State} (v : Word) (hbusy : s.busy = false) :
    memWrite s 0x100C#16 4 v = .ok { s with dlen := some v } := by
  have hp : writePermitted 0x100C#16 4 = true := by decide
  have hr : regionOf 0x100C#16 = .dlen := by decide
  simp [memWrite, hp, hbusy, hr]

/-- STATUS lies in no writable row of the map. -/
theorem status_not_writable (n : Nat) : writePermitted 0x1004#16 n = false := by
  have hr : regionOf 0x1004#16 = .status := by decide
  simp [writePermitted, hr, Region.writable]

/-- CMD lies in no readable row of the map. -/
theorem cmd_not_readable (n : Nat) : readPermitted 0x1000#16 n = false := by
  have hr : regionOf 0x1000#16 = .cmd := by decide
  simp [readPermitted, hr, Region.readable]

/-- Settles O54: the two registers are writable at their offsets, and BUSY = 0 rules the hazard out. -/
theorem registerWriteStoresWord : Obligations.RegisterWriteStoresWord := fun s v rest hbusy =>
  ⟨fun h => step_of_memWrite h (memWrite_lba (s := taken s rest) v hbusy),
    fun h => step_of_memWrite h (memWrite_dlen (s := taken s rest) v hbusy)⟩

/-- Settles O47, by BUSY and FATAL; CMD has no readable row. -/
theorem cmdWriteAccepts : Obligations.CmdWriteAccepts := by
  intro s rest
  refine ⟨fun w h => ⟨fun hbusy hfatal => ?_, fun hbusy hfatal => ?_, fun hbusy => ?_⟩, fun n h => ?_⟩
  · have accepted := memWrite_cmd (s := taken s rest) w hbusy
    rw [accept_of_not_fatal (s := taken s rest) w hfatal] at accepted
    exact ⟨_, step_of_memWrite h accepted, rfl⟩
  · have refused := memWrite_cmd (s := taken s rest) w hbusy
    rw [accept_of_fatal (s := taken s rest) w hfatal] at refused
    exact step_of_memWrite h refused
  · exact meetsFault_of_memWrite h (memWrite_busy (s := taken s rest) w (by decide) hbusy)
  · exact meetsFault_of_memRead h (memRead_not_permitted _ (cmd_not_readable n))

/-! ### Reset (R45, R190) -/

/-- Settles O55: reset is a host statement that cannot fault. -/
theorem resetRestoresResetState : Obligations.ResetRestoresResetState := by
  intro s rest h
  rw [step_of_hostNext h]
  rfl

theorem crcAt_unwritten (n : Nat) : Tables.unwritten.crcAt n = none := by
  rw [Tables.crcAt, Tables.unwritten, Vector.getElem?_replicate]
  split <;> rfl

theorem pqtAt_unwritten (r v : Nat) : Tables.unwritten.pqtAt r v = none := by
  simp only [Tables.pqtAt, Tables.unwritten, Vector.getElem?_replicate]
  split
  · rw [Option.bind_some, Vector.getElem?_replicate]
    split <;> rfl
  · rfl

/-- Settles O11, a clause for each part of the state. -/
theorem resetState : Obligations.ResetState := by
  refine ⟨fun a => rfl, fun n hn => ⟨?_, ?_, crcAt_unwritten n⟩, fun r _ v _ => pqtAt_unwritten r v, rfl, by decide, rfl, rfl,
    rfl, rfl, rfl⟩
  all_goals simp [State.reset, Tables.unwritten, hn]

/-! ### The STATUS word (R33, R56) -/

/-- The bits of STATUS: the four flags in bits 0 to 3, the error code from bit 8 on, zeros elsewhere. -/
theorem getLsbD_statusWord (s : State) (i : Nat) : s.statusWord.getLsbD i =
    if i = 0 then s.busy else if i = 1 then s.done else if i = 2 then s.tv else if i = 3 then s.fatal
    else if 8 ≤ i then s.err.code.getLsbD (i - 8) else false := by
  unfold State.statusWord
  simp only [BitVec.getLsbD_append, BitVec.getLsbD_zero]
  match i with
  | 0 | 1 | 2 | 3 | 4 | 5 | 6 | 7 => simp
  | k + 8 =>
    by_cases hk : k < 4
    · simp [hk]
    · simp [hk, BitVec.getLsbD_of_ge s.err.code k (by omega)]

theorem statusWord_err (s : State) : s.statusWord.extractLsb' 8 4 = s.err.code := by
  ext i hi
  have notFlag : 8 + i ≠ 0 ∧ 8 + i ≠ 1 ∧ 8 + i ≠ 2 ∧ 8 + i ≠ 3 := by omega
  simp [getLsbD_statusWord, notFlag, BitVec.getLsbD_eq_getElem hi]

/-- Bits [7:4] of STATUS are reserved. -/
theorem statusWord_reservedLow (s : State) : s.statusWord.extractLsb' 4 4 = 0#4 := by
  ext i hi
  have between : 4 + i ≠ 0 ∧ 4 + i ≠ 1 ∧ 4 + i ≠ 2 ∧ 4 + i ≠ 3 ∧ ¬ 8 ≤ 4 + i := by omega
  simp [getLsbD_statusWord, between]

/-- Bits [31:12] of STATUS are reserved. -/
theorem statusWord_reservedHigh (s : State) : s.statusWord.extractLsb' 12 20 = 0#20 := by
  ext i hi
  have notFlag : 12 + i ≠ 0 ∧ 12 + i ≠ 1 ∧ 12 + i ≠ 2 ∧ 12 + i ≠ 3 := by omega
  simp [getLsbD_statusWord, notFlag, BitVec.getLsbD_of_ge s.err.code (12 + i - 8) (by omega)]

/-- Settles O48, field by field; STATUS has no writable row. -/
theorem statusWordFields : Obligations.StatusWordFields :=
  ⟨fun s => ⟨getLsbD_statusWord s 0, getLsbD_statusWord s 1, getLsbD_statusWord s 2, getLsbD_statusWord s 3,
    statusWord_reservedLow s, statusWord_err s, statusWord_reservedHigh s, State.Inv.busyDone,
    fun n v _ h => meetsFault_of_memWrite h (memWrite_not_permitted _ v (status_not_writable n))⟩, by decide⟩

/-- The four bytes of a word assemble to it (R53). -/
theorem assembleBytes_wordByte (w : Word) :
    assembleBytes [wordByte w 0, wordByte w 1, wordByte w 2, wordByte w 3] = w := by
  ext i hi
  simp only [assembleBytes, wordByte, BitVec.getElem_or, BitVec.getElem_shiftLeft, BitVec.getElem_setWidth,
    BitVec.getLsbD_extractLsb']
  grind

/-- The cells of STATUS are the bytes of its word. -/
theorem cells_status (s : State) : s.cells statusOffset 4 =
    some [wordByte s.statusWord 0, wordByte s.statusWord 1, wordByte s.statusWord 2, wordByte s.statusWord 3] := rfl

/-- A read of STATUS gives its word, whatever the block is doing (R52, R56). -/
theorem memRead_status (s : State) : memRead s statusOffset 4 = .ok s.statusWord := by
  have hp : readPermitted statusOffset 4 = true := by decide
  have hb : readableWhileBusy statusOffset = true := by decide
  simp [memRead, hp, hb, cells_status, assembleBytes_wordByte]

/-! ### Waiting for completion (R42, R79, R197) -/

/-- A poll of STATUS while BUSY = 1 lets one host step pass, and the wait stays the next statement. -/
theorem step_wait_of_busy {s : State} {rest : List HostStmt} {n : Nat} (hs : Running s) (hbusy : s.busy = true)
    (hhost : s.host = .wait :: rest) (hstall : s.stall = n + 1) : step s = .next { s with stall := n } := by
  have hturn : engineTurn s = false := by simp [engineTurn, hstall, hhost]
  have poll : (taken s rest).statusWord.getLsbD 0 = true := (getLsbD_statusWord _ 0).trans hbusy
  have again : { taken s rest with host := .wait :: rest } = { s with stall := n } := by
    simp only [taken, tick, hstall, hhost, Nat.add_sub_cancel]
  rw [step_of_hostNext ⟨hs, hturn, hhost⟩, runStmt, memRead_status]
  simp only [poll, if_true, recordOutcome, taken_host, again]

/-- A run whose first step goes on continues from there. -/
theorem run_succ_of_next {M : Host.Core} {k : Nat} {s t : M.State} (h : M.step s = .next t) :
    M.run (k + 1) s = M.run k t := by
  simp only [Host.Core.run, h]

/-- Settles O8, by induction on the stall counter. -/
theorem waitReachesCompletion : Obligations.WaitReachesCompletion := by
  intro s rest hs hbusy hhost
  refine ⟨?_, by simp [engineTurn, hbusy]⟩
  generalize hn : s.stall = n
  induction n generalizing s with
  | zero =>
    have hsame : { s with stall := 0 } = s := by rw [← hn]
    rw [hsame]
    rfl
  | succ n ih =>
    have hstep : Sys2Proof.core.step s = Host.Outcome.next { s with stall := n } := step_wait_of_busy hs hbusy hhost hn
    exact (run_succ_of_next hstep).trans (ih { s with stall := n } hs hbusy hhost rfl)

end Sys2Proof.Machine

/-! ### Reading cells that hold no value (R26) -/

namespace Sys2Proof.Machine

/-- `x` reads of BUF, as it stands in `s`, the cells of `P`: it goes on only if each of them holds a value, and a stop is
UnwrittenRead of one that holds none. -/
structure ReadsCells {α : Type} (s : State) (P : Nat → Prop) (x : Eff α) : Prop where
  written : ∀ v, x = .ok v → ∀ a, P a → (s.buf.read a).isSome
  stop : ∀ e, x = .error e → ∃ a, P a ∧ s.buf.read a = none ∧ e = .fault (.unwrittenRead (.buf a))

/-- What reads an unwritten cell is UnwrittenRead of one. -/
theorem ReadsCells.unwrittenRead {α : Type} {s : State} {P : Nat → Prop} {x : Eff α} (h : ReadsCells s P x) {a : Nat}
    (ha : P a) (hn : s.buf.read a = none) :
    ∃ b, P b ∧ s.buf.read b = none ∧ x = .error (.fault (.unwrittenRead (.buf b))) := by
  cases hx : x with
  | ok v => simpa [hn] using h.written v hx a ha
  | error e =>
    obtain ⟨b, hb, hbn, rfl⟩ := h.stop e hx
    exact ⟨b, hb, hbn, rfl⟩

theorem ReadsCells.ok {α : Type} {s : State} (v : α) : ReadsCells s (fun _ => False) (.ok v) :=
  ⟨fun _ _ _ h => h.elim, fun _ h => (nomatch h)⟩

theorem ReadsCells.readBuf (s : State) (i : Nat) : ReadsCells s (· = i) (readBuf s i) := by
  cases hi : s.buf.read i with
  | none =>
    rw [Machine.readBuf, hi, valueAt_none]
    exact ⟨fun _ h => (nomatch h), fun _ h => ⟨i, rfl, hi, (Except.error.inj h).symm⟩⟩
  | some b =>
    rw [readBuf_of_some hi]
    exact ⟨fun _ _ a ha => by rw [ha, hi]; rfl, fun _ h => (nomatch h)⟩

theorem ReadsCells.bind {α β : Type} {s : State} {P Q : Nat → Prop} {x : Eff α} {f : α → Eff β}
    (hx : ReadsCells s P x) (hf : ∀ v, x = .ok v → ReadsCells s Q (f v)) :
    ReadsCells s (fun a => P a ∨ Q a) (x >>= f) := by
  cases hv : x with
  | error e =>
    obtain ⟨a, ha, hn, rfl⟩ := hx.stop e hv
    exact ⟨fun _ h => (nomatch h), fun _ h => ⟨a, .inl ha, hn, (Except.error.inj h).symm⟩⟩
  | ok v =>
    have hfv := hf v hv
    refine ⟨fun w h a ha => ha.elim (hx.written v hv a) (hfv.written w h a), fun e h => ?_⟩
    obtain ⟨a, ha, hn, he⟩ := hfv.stop e h
    exact ⟨a, .inr ha, hn, he⟩

theorem ReadsCells.congr {α : Type} {s : State} {P Q : Nat → Prop} {x : Eff α} (h : ReadsCells s P x)
    (hPQ : ∀ a, P a ↔ Q a) : ReadsCells s Q x := by
  rwa [← funext fun a => propext (hPQ a)]

/-- Cells of another state that reads alike there. -/
theorem ReadsCells.of_read_eq {α : Type} {s u : State} {P : Nat → Prop} {x : Eff α} (h : ReadsCells u P x)
    (hread : ∀ a, P a → u.buf.read a = s.buf.read a) : ReadsCells s P x := by
  refine ⟨fun v hv a ha => hread a ha ▸ h.written v hv a ha, fun e he => ?_⟩
  obtain ⟨a, ha, hn, hstop⟩ := h.stop e he
  exact ⟨a, ha, hread a ha ▸ hn, hstop⟩

/-- A loop whose accumulators all meet `I` reads what its rounds read. -/
theorem ReadsCells.foldlM {α β : Type} {s : State} {I : β → Prop} {P : α → Nat → Prop} {f : β → α → Eff β} {l : List α}
    (hf : ∀ b, I b → ∀ x ∈ l, ReadsCells s (P x) (f b x) ∧ ∀ b', f b x = .ok b' → I b') {b : β} (hb : I b) :
    ReadsCells s (fun a => ∃ x ∈ l, P x a) (l.foldlM f b) := by
  induction l generalizing b with
  | nil => exact (ReadsCells.ok b).congr (by simp)
  | cons x l ih =>
    obtain ⟨hround, hkeep⟩ := hf b hb x (by simp)
    rw [List.foldlM_cons]
    refine (hround.bind fun b' hb' => ih (fun c hc y hy => hf c hc y (by simp [hy])) (hkeep b' hb')).congr fun a => ?_
    simp

/-! ### The cells a parity pass reads (R139) -/

/-- With the tables built, a traversal step reads its two cells of BUF; its table reads never stop. -/
theorem parityStep_readsCells {s : State} (hb : buildTables = some s.tables) {ro : Nat × Nat} (hr : ro.1 < 43)
    (acc : Half × Half) : ReadsCells s (fun a => a = ro.2 ∨ a = ro.2 + 1) (parityStep s acc ro) := by
  have table (x : Byte) : readPqt s ro.1 x.toNat = .ok (pqtEntry (v1At ro.1) (v0At ro.1) x) := by
    rw [readPqt, pqtAt_of_build hb hr, valueAt_some]
  unfold parityStep
  simp only [table, eff_bind_ok]
  exact (ReadsCells.readBuf s ro.2).bind fun x _ =>
    ((ReadsCells.readBuf s (ro.2 + 1)).bind fun y _ => .ok _).congr (by simp)

/-- A pass that writes only from `base` on reads of the state it started from the two cells of every traversal step. -/
theorem parityPass_readsCells {s : State} {steps : Nat → List (Nat × Nat)} {base half n : Nat}
    (hb : buildTables = some s.tables) (hn : 2 * n ≤ half) (hend : base + 2 * half ≤ 2352)
    (hsteps : ∀ i < n, ∀ ro ∈ steps i, ro.1 < 43 ∧ ro.2 + 1 < base) :
    ReadsCells s (fun a => ∃ i ∈ List.range n, ∃ ro ∈ steps i, a = ro.2 ∨ a = ro.2 + 1)
      ((List.range n).foldlM (parityPair steps base half) s) := by
  refine ReadsCells.foldlM (I := fun u => buildTables = some u.tables ∧ ∀ a < base, u.buf.read a = s.buf.read a)
    (fun u ⟨hub, hread⟩ i hi => ?_) ⟨hb, fun _ _ => rfl⟩
  replace hi := List.mem_range.1 hi
  refine ⟨?_, fun v hv => ?_⟩
  · have traversal : ReadsCells u (fun a => ∃ ro ∈ steps i, a = ro.2 ∨ a = ro.2 + 1) (accumulate u (steps i)) :=
      ReadsCells.foldlM (I := fun _ => True)
        (fun acc _ ro hro => ⟨parityStep_readsCells hub (hsteps i hi ro hro).1 acc, fun _ _ => trivial⟩) trivial
    refine ((traversal.bind fun _ _ => .ok _).congr (by simp)).of_read_eq ?_
    rintro a ⟨ro, hro, ha⟩
    have below := (hsteps i hi ro hro).2
    exact hread a (by omega)
  · have hframe : EffFrame (fun a => decide (base ≤ a)) u v :=
      parityPair_frame (fun _ h _ => decide_eq_true h) hend (by omega) hv
    refine ⟨?_, fun a ha => (hframe.out a (decide_eq_false (by omega))).trans (hread a ha)⟩
    obtain ⟨_, htables⟩ | ⟨_, _, hbuilt⟩ := hframe.guard
    · rw [htables, hub]
    · exact hbuilt

/-- The P traversals read every cell of 12..2075 (R139). -/
theorem pSteps_cover {a : Nat} (h1 : 12 ≤ a) (h2 : a ≤ 2075) :
    ∃ i ∈ List.range 43, ∃ ro ∈ pSteps i, a = ro.2 ∨ a = ro.2 + 1 := by
  refine ⟨(a - 12) % 86 / 2, List.mem_range.2 (by omega), _,
    List.mem_map.2 ⟨(a - 12) / 86, List.mem_range.2 (by omega), rfl⟩, ?_⟩
  show a = 12 + 2 * ((a - 12) % 86 / 2) + 86 * ((a - 12) / 86) ∨ _ = _ + 1
  omega

/-- The P traversals read rows of PQ_T, and no cell outside 12..2075. -/
theorem pSteps_within {i : Nat} (hi : i < 43) {ro : Nat × Nat} (h : ro ∈ pSteps i) :
    ro.1 < 43 ∧ 12 ≤ ro.2 ∧ ro.2 + 1 ≤ 2075 := by
  obtain ⟨k, hk, rfl⟩ := List.mem_map.1 h
  have hk := List.mem_range.1 hk
  show 19 + k < 43 ∧ 12 ≤ 12 + 2 * i + 86 * k ∧ 12 + 2 * i + 86 * k + 1 ≤ 2075
  omega

/-- The Q traversals read every cell of 12..2247: cell 12 + 2m + h lies on step k = m mod 43 of the diagonal pair
m / 43 - k, taken modulo 26 (R139). -/
theorem qSteps_cover {a : Nat} (h1 : 12 ≤ a) (h2 : a ≤ 2247) :
    ∃ i ∈ List.range 26, ∃ ro ∈ qSteps i, a = ro.2 ∨ a = ro.2 + 1 := by
  obtain ⟨i, hi, hdiag⟩ : ∃ i < 26, i = ((a - 12) / 86 + 52 - (a - 12) / 2 % 43) % 26 :=
    ⟨_, Nat.mod_lt _ (by omega), rfl⟩
  refine ⟨i, List.mem_range.2 hi, ((a - 12) / 2 % 43, qOffset i ((a - 12) / 2 % 43)), ?_, ?_⟩
  · rw [qSteps_eq hi]
    exact List.mem_map.2 ⟨_, List.mem_range.2 (by omega), rfl⟩
  · simp only [qOffset]
    omega

/-- The Q traversals read rows of PQ_T, and no cell outside 12..2247. -/
theorem qSteps_within {i : Nat} (hi : i < 26) {ro : Nat × Nat} (h : ro ∈ qSteps i) :
    ro.1 < 43 ∧ 12 ≤ ro.2 ∧ ro.2 + 1 ≤ 2247 := by
  rw [qSteps_eq hi] at h
  obtain ⟨k, hk, rfl⟩ := List.mem_map.1 h
  have hk := List.mem_range.1 hk
  simp only [qOffset]
  omega

/-! ### Commands whose input holds no value (R120, R121, R135, R138, R154, R155) -/

/-- A command whose effect meets a model fault is that fault. -/
theorem exec_of_effect_fault {i : Instr} {s : State} {f : Fault} (h : effectOf i s = .error (.fault f)) :
    exec i s = .fault f := by
  rw [exec_eq_finish, h, finish_fault]

theorem edcEffect_of_unwritten {s : State} (htables : TablesOk s) {off len k : Nat} (hlen : off + len ≤ 2352)
    (hk : k < len) (hn : s.buf.read (off + k) = none) (hfirst : ∀ j < k, (s.buf.read (off + j)).isSome) :
    edcEffect off len s = .error (.fault (.unwrittenRead (.buf (off + k)))) := by
  obtain ⟨t, _, hbuild⟩ := ensureTables_of_ok htables
  rw [edcEffect, checkRange_ok hlen, eff_bind_ok, hbuild, eff_bind_ok,
    readRange_of_none (s := setTables t s) hk hn hfirst, eff_bind_error]

theorem edcwEffect_of_unwritten {s : State} (htables : TablesOk s) {k : Nat} (hk : k < 2064)
    (hn : s.buf.read k = none) (hfirst : ∀ j < k, (s.buf.read j).isSome) :
    edcwEffect s = .error (.fault (.unwrittenRead (.buf k))) := by
  obtain ⟨t, _, hbuild⟩ := ensureTables_of_ok htables
  have hrange := readRange_of_none (s := setTables t s) (off := 0) hk (by simpa using hn) (by simpa using hfirst)
  rw [edcwEffect, hbuild, eff_bind_ok, hrange, eff_bind_error, Nat.zero_add]

/-- A parity command with an unwritten cell among those of its traversals is UnwrittenRead of one of them. -/
theorem parity_of_unwritten {s : State} (htables : TablesOk s) {steps : Nat → List (Nat × Nat)} {base half n top : Nat}
    (hn : 2 * n ≤ half) (hend : base + 2 * half ≤ 2352) (htop : top < base)
    (within : ∀ {i}, i < n → ∀ {ro}, ro ∈ steps i → ro.1 < 43 ∧ 12 ≤ ro.2 ∧ ro.2 + 1 ≤ top)
    (cover : ∀ {a}, 12 ≤ a → a ≤ top → ∃ i ∈ List.range n, ∃ ro ∈ steps i, a = ro.2 ∨ a = ro.2 + 1)
    (h : ∃ a, 12 ≤ a ∧ a ≤ top ∧ s.buf.read a = none) :
    ∃ a, 12 ≤ a ∧ a ≤ top ∧ s.buf.read a = none ∧
      (ensureTables s >>= fun s => (List.range n).foldlM (parityPair steps base half) s) =
        .error (.fault (.unwrittenRead (.buf a))) := by
  obtain ⟨a, h12, hle, hnone⟩ := h
  obtain ⟨t, ht, hbuild⟩ := ensureTables_of_ok htables
  have hreads := parityPass_readsCells (s := setTables t s) (steps := steps) ht hn hend fun i hi ro hro => by
    have inside := within hi hro
    omega
  obtain ⟨b, ⟨i, hi, ro, hro, hb⟩, hbnone, hstop⟩ := hreads.unwrittenRead (cover h12 hle) hnone
  have inside := within (List.mem_range.1 hi) hro
  exact ⟨b, by omega, by omega, hbnone, by rw [hbuild, eff_bind_ok, hstop]⟩

theorem hdrEffect_of_no_lba {s : State} (h : s.lba = none) :
    hdrEffect s = .error (.fault (.unwrittenRead .lba)) := by
  rw [hdrEffect, readLba, h, valueAt_none, eff_bind_error]

theorem encodeEffect_of_no_dlen {s : State} (h : s.dlen = none) :
    encodeEffect s = .error (.fault (.unwrittenRead .dlen)) := by
  rw [encodeEffect, readDlen, h, valueAt_none, eff_bind_error]

theorem checkLength_ok : checkLength 2048#32 = .ok () := if_pos rfl

theorem encodeEffect_of_no_lba {s : State} (hd : s.dlen = some 2048#32) (h : s.lba = none) :
    encodeEffect s = .error (.fault (.unwrittenRead .lba)) := by
  rw [encodeEffect, readDlen, hd, valueAt_some, eff_bind_ok, checkLength_ok, eff_bind_ok, readLba, h, valueAt_none,
    eff_bind_error]

/-- Past its checks ENCODE is the table build, then HDR's writes, EDCW, PPAR and QPAR (R155). -/
theorem encodeEffect_of_checks {s : State} (htables : TablesOk s) {l : Word} (hd : s.dlen = some 2048#32)
    (hl : s.lba = some l) (hmax : l.toNat ≤ 449849) :
    ∃ t, buildTables = some t ∧ encodeEffect s =
      (edcwEffect (writeHeader l.toNat (setTables t s)) >>= fun s => pparEffect s >>= qparEffect) := by
  obtain ⟨t, ht, hbuild⟩ := ensureTables_of_ok htables
  refine ⟨t, ht, ?_⟩
  rw [encodeEffect, readDlen, hd, valueAt_some, eff_bind_ok, checkLength_ok, eff_bind_ok, readLba, hl, valueAt_some,
    eff_bind_ok, checkLba_ok hmax, eff_bind_ok, hbuild, eff_bind_ok, hdrEffect_of_lba (s := setTables t s) hl hmax,
    eff_bind_ok]

/-- HDR's writes fill the cells 0..15. -/
theorem read_writeHeader_isSome (l : Nat) (s : State) {a : Nat} (ha : a < 16) :
    ((writeHeader l s).buf.read a).isSome := by
  have hlen : (Config.sync ++ headerBytes l).length = 16 := rfl
  rw [writeHeader, writeBuf_buf, Memory.read_writeBytes_outside _ (.inl (by omega)), writeBuf_buf,
    Memory.read_writeBytes, if_pos (by omega), Nat.sub_zero, List.getElem?_eq_getElem (by omega)]
  rfl

theorem encodeEffect_of_unwritten {s : State} (htables : TablesOk s) {l : Word} (hd : s.dlen = some 2048#32)
    (hl : s.lba = some l) (hmax : l.toNat ≤ 449849) {k : Nat} (hk : k < 2048) (hn : s.buf.read (16 + k) = none)
    (hfirst : ∀ j < k, (s.buf.read (16 + j)).isSome) :
    encodeEffect s = .error (.fault (.unwrittenRead (.buf (16 + k)))) := by
  obtain ⟨t, ht, hencode⟩ := encodeEffect_of_checks htables hd hl hmax
  have user (j : Nat) (hj : j < 2048) :
      (writeHeader l.toNat (setTables t s)).buf.read (16 + j) = s.buf.read (16 + j) :=
    (writeHeader_frame l.toNat (setTables t s)).out _ (decide_eq_false (by omega))
  have built : TablesOk (writeHeader l.toNat (setTables t s)) := ht
  rw [hencode, edcwEffect_of_unwritten built (by omega) ((user k hk).trans hn), eff_bind_error]
  intro j hj
  by_cases h16 : j < 16
  · exact read_writeHeader_isSome _ _ h16
  · obtain ⟨j, rfl⟩ := Nat.exists_eq_add_of_le (Nat.le_of_not_lt h16)
    rw [user j (by omega)]
    exact hfirst j (by omega)

/-- Settles O17, a clause for each command. -/
theorem unwrittenInputFaults : Obligations.UnwrittenInputFaults := by
  intro s htables
  refine ⟨fun off len k hlen hk hn hfirst => ?_, fun k hk hn hfirst => ?_, fun h => ?_, fun h => ?_, fun h => ?_, fun h => ?_,
    fun hd hl => ?_, fun l k hd hl hmax hk hn hfirst => ?_⟩
  · exact exec_of_effect_fault (edcEffect_of_unwritten htables hlen hk hn hfirst)
  · exact exec_of_effect_fault (edcwEffect_of_unwritten htables hk hn hfirst)
  · obtain ⟨a, h1, h2, hn, hstop⟩ :=
      parity_of_unwritten (base := 2076) (half := 86) htables (by omega) (by omega) (by omega) pSteps_within pSteps_cover h
    exact ⟨a, h1, h2, hn, exec_of_effect_fault hstop⟩
  · obtain ⟨a, h1, h2, hn, hstop⟩ :=
      parity_of_unwritten (base := 2248) (half := 52) htables (by omega) (by omega) (by omega) qSteps_within qSteps_cover h
    exact ⟨a, h1, h2, hn, exec_of_effect_fault hstop⟩
  · exact exec_of_effect_fault (hdrEffect_of_no_lba h)
  · exact exec_of_effect_fault (encodeEffect_of_no_dlen h)
  · exact exec_of_effect_fault (encodeEffect_of_no_lba hd hl)
  · exact exec_of_effect_fault (encodeEffect_of_unwritten htables hd hl hmax hk hn hfirst)

end Sys2Proof.Machine

/-! ### The address window and its map (R50, R51) -/

namespace Sys2Proof.Machine

/-- Settles O57: the offset is the distance from BLOCK_BASE, and 16 bits hold it. -/
theorem windowStartsAtBlockBase : Obligations.WindowStartsAtBlockBase := by
  refine ⟨fun a => ?_, fun addr a h => ?_⟩
  · have inside : Config.blockBase ≤ hostAddress a ∧ hostAddress a < Config.blockBase + 65536 := by
      have below := a.isLt
      rw [hostAddress]
      omega
    rw [blockOffset, if_pos inside, hostAddress, Nat.add_sub_cancel_left, BitVec.ofNat_toNat, BitVec.setWidth_eq]
  · unfold blockOffset at h
    split at h
    · next inside =>
      obtain rfl := Option.some.inj h
      rw [hostAddress, BitVec.toNat_ofNat]
      omega
    · cases h

/-- In rows that rise without overlap, an offset inside a row has that row's region. -/
theorem lookupRegion_of_mem {n lo hi : Nat} {r : Region} {rows : List (Nat × Nat × Region)}
    (hrows : rows.Pairwise fun x y => x.2.1 < y.1) (hmem : (lo, hi, r) ∈ rows) (hlo : lo ≤ n) (hhi : n ≤ hi) :
    lookupRegion n rows = r := by
  induction rows with
  | nil => cases hmem
  | cons row rows ih =>
    obtain ⟨habove, hbelow⟩ := List.pairwise_cons.1 hrows
    obtain ⟨lo', hi', r'⟩ := row
    rw [lookupRegion]
    obtain hrow | hmem := List.mem_cons.1 hmem
    · cases hrow
      exact if_pos ⟨hlo, hhi⟩
    · have above : hi' < lo := habove _ hmem
      rw [if_neg (by omega), ih hbelow hmem]

/-- An offset inside a row of the address map has that row's region. -/
theorem regionAt_of_row {n : Nat} (lo hi : Nat) {r : Region} (hrow : (lo, hi, r) ∈ addressMap) (hlo : lo ≤ n)
    (hhi : n ≤ hi) : regionAt n = r :=
  lookupRegion_of_mem (by decide) hrow hlo hhi

/-! ### The cell a readable offset names (R51, R53, R55) -/

theorem cell_buf (s : State) {a : Nat} (ha : a < 2352) : s.cell a = s.buf.read a := by
  simp only [State.cell, regionAt_eq_buf.2 ha]

theorem cell_log (s : State) {x : Nat} (hx : x < 256) : s.cell (0x2000 + x) = s.tables.log[x]?.join := by
  simp only [State.cell, regionAt_of_row (n := 0x2000 + x) (r := .log) 0x2000 0x20FF (by decide) (by omega) (by omega),
    Nat.add_sub_cancel_left]

theorem cell_ilog (s : State) {x : Nat} (hx : x < 256) : s.cell (0x2100 + x) = s.tables.ilog[x]?.join := by
  simp only [State.cell, regionAt_of_row (n := 0x2100 + x) (r := .ilog) 0x2100 0x21FF (by decide) (by omega) (by omega),
    Nat.add_sub_cancel_left]

theorem cell_crc (s : State) {n k : Nat} (hn : n < 256) (hk : k < 4) :
    s.cell (0x2400 + 4 * n + k) = (s.tables.crcAt n).map fun w => wordByte w k := by
  have entry : (0x2400 + 4 * n + k - 0x2400) / 4 = n := by omega
  have byte : (0x2400 + 4 * n + k - 0x2400) % 4 = k := by omega
  simp only [State.cell, entry, byte,
    regionAt_of_row (n := 0x2400 + 4 * n + k) (r := .crc) 0x2400 0x27FF (by decide) (by omega) (by omega)]

theorem cell_pqt (s : State) {r v k : Nat} (hr : r < 43) (hv : v < 256) (hk : k < 2) :
    s.cell (0x4000 + 512 * r + 2 * v + k) = (s.tables.pqtAt r v).map fun h => halfByte h k := by
  have row : (0x4000 + 512 * r + 2 * v + k - 0x4000) / 512 = r := by omega
  have column : (0x4000 + 512 * r + 2 * v + k - 0x4000) % 512 / 2 = v := by omega
  have lane : (0x4000 + 512 * r + 2 * v + k - 0x4000) % 2 = k := by omega
  simp only [State.cell, row, column, lane,
    regionAt_of_row (n := 0x4000 + 512 * r + 2 * v + k) (r := .pqt) 0x4000 0x95FF (by decide) (by omega) (by omega)]

theorem cell_status (s : State) {k : Nat} (hk : k < 4) : s.cell (0x1004 + k) = some (wordByte s.statusWord k) := by
  simp only [State.cell, Nat.add_sub_cancel_left,
    regionAt_of_row (n := 0x1004 + k) (r := .status) 0x1004 0x1007 (by decide) (by omega) (by omega)]

theorem cell_lba (s : State) {k : Nat} (hk : k < 4) : s.cell (0x1008 + k) = s.lba.map fun w => wordByte w k := by
  simp only [State.cell, Nat.add_sub_cancel_left,
    regionAt_of_row (n := 0x1008 + k) (r := .lba) 0x1008 0x100B (by decide) (by omega) (by omega)]

theorem cell_dlen (s : State) {k : Nat} (hk : k < 4) : s.cell (0x100C + k) = s.dlen.map fun w => wordByte w k := by
  simp only [State.cell, Nat.add_sub_cancel_left,
    regionAt_of_row (n := 0x100C + k) (r := .dlen) 0x100C 0x100F (by decide) (by omega) (by omega)]

theorem cell_edcResult (s : State) {k : Nat} (hk : k < 4) :
    s.cell (0x1010 + k) = s.edcResult.map fun w => wordByte w k := by
  simp only [State.cell, Nat.add_sub_cancel_left,
    regionAt_of_row (n := 0x1010 + k) (r := .edcResult) 0x1010 0x1013 (by decide) (by omega) (by omega)]

/-- Settles O52, window by window. -/
theorem windowsNameTheirCells : Obligations.WindowsNameTheirCells := fun s =>
  ⟨fun _ => cell_buf s, fun _ hx => ⟨cell_log s hx, cell_ilog s hx⟩, fun _ hn _ => cell_crc s hn,
    fun _ hr _ hv => ⟨cell_pqt s hr hv (k := 0) (by omega), cell_pqt s hr hv (k := 1) (by omega)⟩,
    fun _ hk => ⟨cell_status s hk, cell_lba s hk, cell_dlen s hk, cell_edcResult s hk⟩⟩

/-! ### The well-formed accesses (R51, R58, R59) -/

/-- The region of an offset is that of a row that holds it, or no row does and it is unmapped. -/
theorem lookupRegion_cases (n : Nat) (rows : List (Nat × Nat × Region)) :
    (∃ row ∈ rows, row.2.2 = lookupRegion n rows ∧ row.1 ≤ n ∧ n ≤ row.2.1) ∨
      (lookupRegion n rows = .unmapped ∧ ∀ row ∈ rows, ¬ (row.1 ≤ n ∧ n ≤ row.2.1)) := by
  induction rows with
  | nil => exact .inr ⟨rfl, by simp⟩
  | cons row rows ih =>
    obtain ⟨lo, hi, r⟩ := row
    rw [lookupRegion]
    split
    · next inside => exact .inl ⟨_, List.mem_cons_self, rfl, inside⟩
    · next outside =>
      obtain ⟨row, hmem, hrow⟩ | ⟨hunmapped, hout⟩ := ih
      · exact .inl ⟨row, List.mem_cons_of_mem _ hmem, hrow⟩
      · exact .inr ⟨hunmapped, List.forall_mem_cons.2 ⟨outside, hout⟩⟩

theorem regionOf_cases (a : Offset) :
    (∃ row ∈ addressMap, row.2.2 = regionOf a ∧ row.1 ≤ a.toNat ∧ a.toNat ≤ row.2.1) ∨
      (regionOf a = .unmapped ∧ ∀ row ∈ addressMap, ¬ (row.1 ≤ a.toNat ∧ a.toNat ≤ row.2.1)) :=
  lookupRegion_cases a.toNat addressMap

/-- The permitted reads: an aligned access of width 1, 2 or 4 in BUF or a table window, or a word access of a readable
register, whose row holds one aligned word only. -/
theorem readPermitted_iff {a : Offset} {n : Nat} : readPermitted a n = true ↔
    ((n = 1 ∨ n = 2 ∨ n = 4) ∧ a.toNat % n = 0 ∧
      (a.toNat ≤ 0x092F ∨ (0x2000 ≤ a.toNat ∧ a.toNat ≤ 0x21FF) ∨ (0x2400 ≤ a.toNat ∧ a.toNat ≤ 0x27FF) ∨
        (0x4000 ≤ a.toNat ∧ a.toNat ≤ 0x95FF))) ∨
    (n = 4 ∧ (a = 0x1004#16 ∨ a = 0x1008#16 ∨ a = 0x100C#16 ∨ a = 0x1010#16)) := by
  have hmap := regionOf_cases a
  simp only [readPermitted, aligned, Bool.and_eq_true, beq_iff_eq, ← BitVec.toNat_inj, BitVec.toNat_ofNat, Nat.reducePow,
    Nat.reduceMod]
  generalize regionOf a = r at hmap ⊢
  simp only [addressMap, List.exists_mem_cons_iff, List.forall_mem_cons, List.not_mem_nil] at hmap
  cases r <;> simp only [Region.readable, Region.widthOk, Bool.or_eq_true, beq_iff_eq, reduceCtorEq] at hmap ⊢ <;> grind

/-- The permitted writes: an aligned access of width 1, 2 or 4 in BUF, or a word access of a writable register, whose row
holds one aligned word only. -/
theorem writePermitted_iff {a : Offset} {n : Nat} : writePermitted a n = true ↔
    ((n = 1 ∨ n = 2 ∨ n = 4) ∧ a.toNat % n = 0 ∧ a.toNat ≤ 0x092F) ∨
    (n = 4 ∧ (a = 0x1000#16 ∨ a = 0x1008#16 ∨ a = 0x100C#16)) := by
  have hmap := regionOf_cases a
  simp only [writePermitted, aligned, Bool.and_eq_true, beq_iff_eq, ← BitVec.toNat_inj, BitVec.toNat_ofNat, Nat.reducePow,
    Nat.reduceMod]
  generalize regionOf a = r at hmap ⊢
  simp only [addressMap, List.exists_mem_cons_iff, List.forall_mem_cons, List.not_mem_nil] at hmap
  cases r <;> simp only [Region.writable, Region.widthOk, Bool.or_eq_true, beq_iff_eq, reduceCtorEq] at hmap ⊢ <;> grind

/-! ### The faults a host access meets (R56, R57, R177) -/

/-- A host statement that goes on records no fault, unless it is reset. -/
theorem faults_of_runStmt {st : HostStmt} {s t : State} (hst : st ≠ .reset) (h : runStmt st s = .next t) :
    t.faults = s.faults := by
  obtain ⟨w, _, _, rfl⟩ | ⟨hreset, _⟩ | hframe := runStmt_cases h
  · rw [accept]
    split <;> rfl
  · exact absurd hreset hst
  · rw [hframe.rest]

/-- At the host's turn the model fault a step meets is the one its statement meets. -/
theorem meetsFault_iff_runStmt {s : State} {st : HostStmt} {rest : List HostStmt} {f : Fault} (h : HostNext s st rest)
    (hst : st ≠ .reset) : MeetsFault s f ↔ runStmt st (taken s rest) = .fault f := by
  refine ⟨fun ⟨t, hstep, hfaults⟩ => ?_, meetsFault_of_runStmt h⟩
  obtain ⟨_, hturn, hhost⟩ := h
  obtain ⟨_, hevent | ⟨g, hevent, rfl⟩⟩ := step_eq_next hstep <;> rw [event_host hturn hhost] at hevent
  · rw [faults_of_runStmt hst hevent, taken_faults] at hfaults
    simp at hfaults
  · obtain rfl : g = f := by simpa using hfaults
    exact hevent

theorem meetsFault_iff_memRead {s : State} {a : Offset} {n : Nat} {rest : List HostStmt} {f : Fault}
    (h : HostNext s (.read a n) rest) : MeetsFault s f ↔ memRead (taken s rest) a n = .error f := by
  rw [meetsFault_iff_runStmt h (by simp), runStmt]
  cases memRead (taken s rest) a n <;> simp

theorem meetsFault_iff_memWrite {s : State} {a : Offset} {n : Nat} {v : Word} {rest : List HostStmt} {f : Fault}
    (h : HostNext s (.write a n v) rest) : MeetsFault s f ↔ memWrite (taken s rest) a n v = .error f := by
  rw [meetsFault_iff_runStmt h (by simp), runStmt]
  cases memWrite (taken s rest) a n v <;> simp

theorem memRead_busy {s : State} {a : Offset} {n : Nat} (hp : readPermitted a n = true) (hbusy : s.busy = true)
    (ha : readableWhileBusy a = false) : memRead s a n = .error (.hostHazard a) := by
  simp [memRead, hp, hbusy, ha]

/-- A permitted read outside the busy hazard assembles its bytes. -/
theorem memRead_of_cells {s : State} {a : Offset} {n : Nat} {bytes : List Byte} (hp : readPermitted a n = true)
    (hb : s.busy = false ∨ readableWhileBusy a = true) (hcells : s.cells a n = some bytes) :
    memRead s a n = .ok (assembleBytes bytes) := by
  rcases hb with hb | hb <;> simp [memRead, hp, hb, hcells]

/-- A permitted read outside the busy hazard stops where a byte holds no value. -/
theorem memRead_of_no_cells {s : State} {a : Offset} {n : Nat} (hp : readPermitted a n = true)
    (hb : s.busy = false ∨ readableWhileBusy a = true) (hcells : s.cells a n = none) :
    memRead s a n = .error (.unwrittenRead (.bus a)) := by
  rcases hb with hb | hb <;> simp [memRead, hp, hb, hcells]

theorem memRead_hostAccessFault_iff {s : State} {a : Offset} {n : Nat} :
    memRead s a n = .error (.hostAccessFault a n) ↔ ¬ readPermitted a n = true := by
  rw [Bool.not_eq_true]
  refine ⟨fun h => ?_, memRead_not_permitted s⟩
  unfold memRead at h
  split_ifs at h with hp
  · exact hp
  · cases h
  · split at h <;> cases h

theorem memWrite_hostAccessFault_iff {s : State} {a : Offset} {n : Nat} {v : Word} :
    memWrite s a n v = .error (.hostAccessFault a n) ↔ ¬ writePermitted a n = true := by
  rw [Bool.not_eq_true]
  refine ⟨fun h => ?_, memWrite_not_permitted s v⟩
  unfold memWrite at h
  split_ifs at h with hp
  · exact hp
  · cases h
  · split at h <;> cases h

theorem memRead_hostHazard_iff {s : State} {a : Offset} {n : Nat} (hp : readPermitted a n = true)
    (hbusy : s.busy = true) : memRead s a n = .error (.hostHazard a) ↔ ¬ readableWhileBusy a = true := by
  rw [Bool.not_eq_true]
  refine ⟨fun h => ?_, memRead_busy hp hbusy⟩
  by_contra ha
  have clear : s.busy = false ∨ readableWhileBusy a = true := .inr (by simpa using ha)
  cases hcells : s.cells a n with
  | none => rw [memRead_of_no_cells hp clear hcells] at h; cases h
  | some bytes => rw [memRead_of_cells hp clear hcells] at h; cases h

/-- Settles O49: the fault is met exactly when the map does not permit the access. -/
theorem malformedAccessFaults : Obligations.MalformedAccessFaults := by
  intro s a n rest
  refine ⟨fun h => ?_, fun v h => ?_⟩
  · rw [meetsFault_iff_memRead h, memRead_hostAccessFault_iff, readPermitted_iff]
  · rw [meetsFault_iff_memWrite h, memWrite_hostAccessFault_iff, writePermitted_iff]

/-- Settles O50: a read of the three registers is decided by their cells, any other access in the window is the hazard. -/
theorem busyAccessIsHazard : Obligations.BusyAccessIsHazard := by
  intro s a n rest hbusy
  refine ⟨fun h hp => ?_, fun v h hp => ?_⟩
  · rw [meetsFault_iff_memRead h, memRead_hostHazard_iff (s := taken s rest) hp hbusy]
    simp only [readableWhileBusy, Bool.or_eq_true, beq_iff_eq, or_assoc]
  · exact meetsFault_of_memWrite h (memWrite_busy (s := taken s rest) v hp hbusy)

/-! ### The value of a read (R53, R56) -/

theorem mapM_eq_some_map {α β : Type} {f : α → Option β} {g : α → β} {l : List α} (h : ∀ x ∈ l, f x = some (g x)) :
    l.mapM f = some (l.map g) := by
  induction l with
  | nil => rfl
  | cons x l ih =>
    rw [List.mapM_cons, h x (by simp), ih fun y hy => h y (by simp [hy])]
    rfl

theorem mapM_eq_none {α β : Type} {f : α → Option β} {l : List α} {x : α} (hx : x ∈ l) (h : f x = none) :
    l.mapM f = none := by
  induction l with
  | nil => cases hx
  | cons y l ih =>
    rw [List.mapM_cons]
    obtain rfl | hx := List.mem_cons.1 hx
    · rw [h]
      rfl
    · rw [ih hx]
      cases f y <;> rfl

/-- Each byte is put below the value of the bytes after it, and nothing of a value of 24 bits is lost. -/
theorem toNat_assembleBytes_cons (b : Byte) {bs : List Byte} (h : (assembleBytes bs).toNat < 2 ^ 24) :
    (assembleBytes (b :: bs)).toNat = (assembleBytes bs).toNat * 2 ^ 8 + b.toNat := by
  have hb := b.isLt
  rw [assembleBytes, BitVec.toNat_or, BitVec.toNat_shiftLeft, BitVec.toNat_setWidth,
    Nat.mod_eq_of_lt (by omega : b.toNat < _), Nat.mod_eq_of_lt (by rw [Nat.shiftLeft_eq]; omega),
    ← Nat.shiftLeft_add_eq_or_of_lt hb, Nat.shiftLeft_eq]

/-- Up to four bytes assemble to their sum, and fill no more than their own width. -/
theorem toNat_assembleBytes {n : Nat} (hn : n ≤ 4) (b : Nat → Byte) :
    (assembleBytes ((List.range n).map b)).toNat = ∑ k ∈ Finset.range n, (b k).toNat * 2 ^ (8 * k) ∧
      (assembleBytes ((List.range n).map b)).toNat < 2 ^ (8 * n) := by
  induction n generalizing b with
  | zero => simp [assembleBytes]
  | succ n ih =>
    obtain ⟨hsum, hlt⟩ := ih (by omega) fun k => b (k + 1)
    have hb := (b 0).isLt
    have hshort : 2 ^ (8 * n) ≤ 2 ^ 24 := Nat.pow_le_pow_right (by omega) (by omega)
    have lowestFirst : (List.range (n + 1)).map b = b 0 :: (List.range n).map fun k => b (k + 1) := by
      rw [List.range_succ_eq_map, List.map_cons, List.map_map]
      rfl
    rw [lowestFirst, toNat_assembleBytes_cons _ (by omega)]
    constructor
    · rw [hsum, Finset.sum_range_succ', Finset.sum_mul]
      simp [Nat.mul_add, pow_add, Nat.mul_assoc]
    · rw [Nat.mul_add, pow_add]
      omega

theorem width_of_readPermitted {a : Offset} {n : Nat} (h : readPermitted a n = true) : n ≤ 4 := by
  obtain ⟨h, _⟩ | ⟨h, _⟩ := readPermitted_iff.1 h <;> omega

/-- Settles O51: the cells of the access decide it, and up to four bytes assemble to their sum. -/
theorem hostReadIsLittleEndian : Obligations.HostReadIsLittleEndian := by
  intro s a n rest h hp hb
  refine ⟨fun b hcells => ?_, fun ⟨k, hk, hnone⟩ => ?_⟩
  · obtain ⟨hsum, _⟩ := toNat_assembleBytes (width_of_readPermitted hp) b
    refine ⟨_, hsum, ?_⟩
    have values : (taken s rest).cells a n = some ((List.range n).map b) :=
      mapM_eq_some_map fun k hk => hcells k (List.mem_range.1 hk)
    rw [step_of_hostNext h, runStmt, memRead_of_cells (s := taken s rest) hp hb values]
    rfl
  · have unwritten : (taken s rest).cells a n = none := mapM_eq_none (List.mem_range.2 hk) hnone
    exact meetsFault_of_memRead h (memRead_of_no_cells (s := taken s rest) hp hb unwritten)

/-! ### A write of BUF (R53, R57) -/

theorem memWrite_buf {s : State} {a : Offset} {n : Nat} (v : Word) (hp : writePermitted a n = true)
    (hbusy : s.busy = false) (ha : a.toNat < 2352) :
    memWrite s a n v = .ok (writeBuf s a.toNat ((List.range n).map fun t => wordByte v t)) := by
  have hr : regionOf a = .buf := regionAt_eq_buf.2 ha
  simp [memWrite, hp, hbusy, hr]

/-- Settles O53: the write is permitted, and the buffer reads back the bytes inside the run and itself outside it. -/
theorem hostWriteStoresBytes : Obligations.HostWriteStoresBytes := by
  intro s a n v rest h hbusy hwidth halign ha
  have hp : writePermitted a n = true := writePermitted_iff.2 (.inl ⟨hwidth, halign, ha⟩)
  have written := memWrite_buf (s := taken s rest) v hp hbusy (by omega)
  refine ⟨_, step_of_memWrite h written, rfl, fun k hk => ?_, fun x hx => ?_⟩
  · rw [writeBuf_buf, Memory.read_writeBytes, if_pos (by simp [hk]), Nat.add_sub_cancel_left]
    simp [hk, wordByte]
  · exact Memory.read_writeBytes_outside _ (by simpa using hx)

/-! ### What EDCW writes (R54, R121) -/

/-- With BUF[0..2063] written, the effect of EDCW is the table build, then its two writes. -/
theorem edcwEffect_of_read {s : State} {d : Nat → Byte} (htables : TablesOk s) (hd : Holds s 0 2063 d) {e : Word}
    (he : e = edcOf (bytesFrom d 0 2064)) :
    ∃ t, buildTables = some t ∧ edcwEffect s =
      .ok (setEdcResult e (writeBuf (setTables t s) 2064 [wordByte e 0, wordByte e 1, wordByte e 2, wordByte e 3])) := by
  obtain ⟨t, ht, hbuild⟩ := ensureTables_of_ok htables
  have hrange : readRange (setTables t s) 0 2064 = .ok (bytesFrom d 0 2064) :=
    readRange_of_read fun k hk => hd _ (by omega) (by omega)
  refine ⟨t, ht, ?_⟩
  rw [edcwEffect, hbuild, eff_bind_ok, hrange, eff_bind_ok, calcEdc_of_build (s := setTables t s) ht, ← he, eff_bind_ok,
    eff_pure]

/-- A command whose effect succeeds completes with it. -/
theorem exec_of_effect_ok {i : Instr} {s t : State} (h : effectOf i s = .ok t) : exec i s = .next (complete .none t) := by
  rw [exec_eq_finish, h, finish_ok]

/-- Settles O31: the four bytes are read back where EDCW wrote them, and every other cell as before. -/
theorem edcwWritesSectorEdc : Obligations.EdcwWritesSectorEdc := by
  intro d s htables hd
  generalize he : edcOf (bytesFrom d 0 2064) = e
  obtain ⟨t, ht, heffect⟩ := edcwEffect_of_read htables hd he.symm
  have stored (a : Nat) := Memory.read_writeBytes s.buf 2064 a [wordByte e 0, wordByte e 1, wordByte e 2, wordByte e 3]
  exact ⟨_, e, rfl, exec_of_effect_ok (i := .edcw) heffect, rfl, stored 2064, stored 2065, stored 2066, stored 2067,
    fun a ha => Memory.read_writeBytes_outside _ (by simp only [List.length_cons, List.length_nil]; omega), ⟨rfl, ht⟩, rfl⟩

/-! ### The frame of every command (R25, R68) -/

/-- A loop keeps what its rounds keep. -/
theorem foldlM_keeps {α β : Type} {I : β → Prop} {f : β → α → Eff β} (hf : ∀ b x b', I b → f b x = .ok b' → I b')
    {l : List α} {b c : β} (hb : I b) (h : l.foldlM f b = .ok c) : I c := by
  induction l generalizing b with
  | nil => exact Except.ok.inj h ▸ hb
  | cons x l ih =>
    rw [List.foldlM_cons] at h
    obtain ⟨b', hb', h⟩ := eff_bind_eq_ok.1 h
    exact ih (hf b x b' hb hb') h

theorem ensureTables_edcResult {s t : State} (h : ensureTables s = .ok t) : t.edcResult = s.edcResult := by
  obtain ⟨_, rfl⟩ | ⟨_, _, _, rfl⟩ := ensureTables_cases h <;> rfl

theorem parityPass_edcResult {steps : Nat → List (Nat × Nat)} {base half : Nat} {l : List Nat} {s t : State}
    (h : l.foldlM (parityPair steps base half) s = .ok t) : t.edcResult = s.edcResult := by
  refine foldlM_keeps (I := fun u => u.edcResult = s.edcResult) (fun u i v hu hv => ?_) rfl h
  obtain ⟨ab, _, hv⟩ := eff_bind_eq_ok.1 hv
  obtain rfl := Except.ok.inj hv
  exact hu

@[simp] theorem writeHeader_edcResult (l : Nat) (s : State) : (writeHeader l s).edcResult = s.edcResult := by
  simp only [writeHeader, writeBuf_edcResult]

@[simp] theorem writeHeader_tv (l : Nat) (s : State) : (writeHeader l s).tv = s.tv := by
  simp only [writeHeader, writeBuf_tv]

@[simp] theorem writeHeader_tables (l : Nat) (s : State) : (writeHeader l s).tables = s.tables := by
  simp only [writeHeader, writeBuf_tables]

theorem hdrEffect_eq_ok {s t : State} (h : hdrEffect s = .ok t) : ∃ l, t = writeHeader l s := by
  obtain ⟨l, _, h⟩ := eff_bind_eq_ok.1 h
  obtain ⟨_, _, h⟩ := eff_bind_eq_ok.1 h
  exact ⟨l.toNat, (Except.ok.inj h).symm⟩

/-- Only EDC, EDCW and ENCODE write EDC_RESULT (R41, R68). -/
theorem effectOf_edcResult {i : Instr} (hi : i = .init ∨ i = .ppar ∨ i = .qpar ∨ i = .hdr) {s t : State}
    (h : effectOf i s = .ok t) : t.edcResult = s.edcResult := by
  obtain rfl | rfl | rfl | rfl := hi
  · exact ensureTables_edcResult h
  · obtain ⟨u, hu, h⟩ := eff_bind_eq_ok.1 h
    exact (parityPass_edcResult h).trans (ensureTables_edcResult hu)
  · obtain ⟨u, hu, h⟩ := eff_bind_eq_ok.1 h
    exact (parityPass_edcResult h).trans (ensureTables_edcResult hu)
  · obtain ⟨l, rfl⟩ := hdrEffect_eq_ok h
    exact writeHeader_edcResult l s

/-- An effect leaves the tables alone while TV = 1 (R102), and HDR's always (R103). -/
theorem effectOf_tables {i : Instr} {s t : State} (hi : s.tv = true ∨ i = .hdr) (h : effectOf i s = .ok t) :
    t.tv = s.tv ∧ t.tables = s.tables := by
  obtain htv | rfl := hi
  · obtain hsame | ⟨hclear, _⟩ := (effectOf_frame h).guard
    · exact hsame
    · simp [htv] at hclear
  · obtain ⟨l, rfl⟩ := hdrEffect_eq_ok h
    exact ⟨writeHeader_tv l s, writeHeader_tables l s⟩

/-- Settles O15: the frame of the effect under the completion update, or an operand error, which has no effect. -/
theorem commandWritesOnlyItsCells : Obligations.CommandWritesOnlyItsCells := by
  intro i s t h
  obtain ⟨u, heffect, rfl, hframe⟩ | ⟨_, ht⟩ := exec_eq_next h
  · refine ⟨hframe.out, congrArg (complete .none) hframe.rest, fun hi => ?_, fun hi => ?_⟩
    · exact effectOf_tables (t := u) hi heffect
    · exact effectOf_edcResult (t := u) hi heffect
  · obtain ⟨e, rfl⟩ : ∃ e, t = complete e s := ⟨_, ht⟩
    exact ⟨fun _ _ => rfl, rfl, fun _ => ⟨rfl, rfl⟩, fun _ => rfl⟩

end Sys2Proof.Machine

/-! ### The decoder and the encoder as arithmetic (R71 to R77) -/

namespace Sys2Proof

theorem decodeBare_eq (w : Word) (i : Instr) :
    decodeBare w i = if w.toNat / 256 = 0 then .command i else .illegal .reservedBits := by
  have high : w.extractLsb' 8 24 = 0#24 ↔ w.toNat / 256 = 0 := by
    rw [← BitVec.toNat_inj, BitVec.extractLsb'_toNat, Nat.shiftRight_eq_div_pow, BitVec.toNat_zero]
    omega
  simp only [decodeBare, high]

/-- What the decoder can answer, by the OP byte: EDC with its operands (R72), a command whose remaining bits are reserved
(R75), or ILLEGAL for an unassigned OP (R74). -/
theorem decode_cases (w : Word) :
    (w.toNat % 256 = 2 ∧ decode w = .command (.edc (w.toNat / 2 ^ 8 % 2 ^ 12) (w.toNat / 2 ^ 20))) ∨
    (∃ i, (encode i).toNat = w.toNat % 256 ∧ i.wellFormed = true ∧
      (0 < w.toNat % 256 ∧ w.toNat % 256 ≠ 2 ∧ w.toNat % 256 < 8) ∧ decode w = decodeBare w i) ∨
    ((w.toNat % 256 = 0 ∨ 8 ≤ w.toNat % 256) ∧ decode w = .illegal .unassignedOp) := by
  have op : (w.extractLsb' 0 8).toNat = w.toNat % 256 := by simp [BitVec.extractLsb'_toNat]
  have off : (w.extractLsb' 8 12).toNat = w.toNat / 2 ^ 8 % 2 ^ 12 := by
    rw [BitVec.extractLsb'_toNat, Nat.shiftRight_eq_div_pow]
  have len : (w.extractLsb' 20 12).toNat = w.toNat / 2 ^ 20 := by
    rw [BitVec.extractLsb'_toNat, Nat.shiftRight_eq_div_pow]
    omega
  rw [decode, op, off, len]
  split
  next h => exact .inr (.inl ⟨.init, h.symm, rfl, by omega, rfl⟩)
  next h => exact .inl ⟨h, rfl⟩
  next h => exact .inr (.inl ⟨.edcw, h.symm, rfl, by omega, rfl⟩)
  next h => exact .inr (.inl ⟨.ppar, h.symm, rfl, by omega, rfl⟩)
  next h => exact .inr (.inl ⟨.qpar, h.symm, rfl, by omega, rfl⟩)
  next h => exact .inr (.inl ⟨.hdr, h.symm, rfl, by omega, rfl⟩)
  next h => exact .inr (.inl ⟨.encode, h.symm, rfl, by omega, rfl⟩)
  next => exact .inr (.inr ⟨by grind, rfl⟩)

/-- The fields of an EDC word, OP lowest, as one sum (R71). -/
theorem toNat_encode_edc {off len : Nat} (hoff : off < 4096) (hlen : len < 4096) :
    (encode (.edc off len)).toNat = len * 2 ^ 20 + off * 2 ^ 8 + 2 := by
  simp only [encode, BitVec.toNat_append, BitVec.toNat_ofNat]
  rw [← Nat.shiftLeft_add_eq_or_of_lt (by omega), ← Nat.shiftLeft_add_eq_or_of_lt (by omega)]
  simp only [Nat.shiftLeft_eq]
  omega

theorem wellFormed_edc_iff {off len : Nat} : (Instr.edc off len).wellFormed = true ↔ off < 4096 ∧ len < 4096 := by
  simp [Instr.wellFormed]

/-- The OP byte of an EDC word is EDC's, and its operands come back as the quotients above it. -/
theorem decode_encode_edc {off len : Nat} (hoff : off < 4096) (hlen : len < 4096) :
    decode (encode (.edc off len)) = .command (.edc off len) := by
  have fields := toNat_encode_edc hoff hlen
  obtain ⟨_, h⟩ | ⟨_, _, _, ⟨_, hop, _⟩, _⟩ | ⟨hop, _⟩ := decode_cases (encode (.edc off len))
  · have hoff' : (encode (.edc off len)).toNat / 2 ^ 8 % 2 ^ 12 = off := by omega
    have hlen' : (encode (.edc off len)).toNat / 2 ^ 20 = len := by omega
    rw [h, hoff', hlen']
  · omega
  · omega

theorem decode_encode {i : Instr} (h : i.wellFormed = true) : decode (encode i) = .command i := by
  cases i with
  | edc off len =>
    obtain ⟨hoff, hlen⟩ := wellFormed_edc_iff.1 h
    exact decode_encode_edc hoff hlen
  | init | edcw | ppar | qpar | hdr | encode => decide

/-- A word with EDC's OP is the word of the operands above it (R72). -/
theorem encode_edc_of_op {w : Word} (hop : w.toNat % 256 = 2) :
    (Instr.edc (w.toNat / 2 ^ 8 % 2 ^ 12) (w.toNat / 2 ^ 20)).wellFormed = true ∧
      encode (.edc (w.toNat / 2 ^ 8 % 2 ^ 12) (w.toNat / 2 ^ 20)) = w := by
  have hoff : w.toNat / 2 ^ 8 % 2 ^ 12 < 4096 := by omega
  have hlen : w.toNat / 2 ^ 20 < 4096 := by omega
  refine ⟨wellFormed_edc_iff.2 ⟨hoff, hlen⟩, BitVec.eq_of_toNat_eq ?_⟩
  rw [toNat_encode_edc hoff hlen]
  omega

/-- Settles O1: the two fields of EDC are apart and the other words are constants; the bus order gives the word back. -/
theorem decodeEncodeRoundTrip : Obligations.DecodeEncodeRoundTrip := fun i h =>
  ⟨decode_encode h, (Machine.decodeBytes_wordBytes (encode i)).trans (decode_encode h)⟩

/-- Settles O2, by what the decoder can answer. -/
theorem decodedCommandReencodes : Obligations.DecodedCommandReencodes := by
  intro w i hi
  obtain ⟨hop, h⟩ | ⟨j, hj, hwf, _, h⟩ | ⟨_, h⟩ := decode_cases w
  · obtain rfl := Decoded.command.inj (h.symm.trans hi)
    exact encode_edc_of_op hop
  · rw [h, decodeBare_eq] at hi
    split at hi
    · next hhigh =>
      obtain rfl := Decoded.command.inj hi
      exact ⟨hwf, BitVec.eq_of_toNat_eq (by omega)⟩
    · cases hi
  · cases h.symm.trans hi

/-- The decoder and the encoder are inverse on the well-formed commands. -/
theorem decode_eq_command_iff {w : Word} {i : Instr} :
    decode w = .command i ↔ i.wellFormed = true ∧ encode i = w :=
  ⟨decodedCommandReencodes w i, fun ⟨hwf, henc⟩ => henc ▸ decode_encode hwf⟩

/-- A mask of all ones compares the whole word. -/
theorem decode_eq_command_iff_fullMask {w m : Word} {i : Instr} (hwf : i.wellFormed = true) (hm : encode i = m) :
    decode w = .command i ↔ w &&& 0xFFFFFFFF#32 = m := by
  have mask : w &&& 0xFFFFFFFF#32 = w := BitVec.and_allOnes
  rw [decode_eq_command_iff, hm, mask, eq_comm (a := w)]
  exact and_iff_right hwf

/-- EDC's mask keeps the OP byte alone, so its match says nothing of the operands. -/
theorem decode_eq_edc_iff_mask {w : Word} {off len : Nat} : decode w = .command (.edc off len) ↔
    w &&& 0x000000FF#32 = 0x00000002#32 ∧ off = w.toNat / 2 ^ 8 % 2 ^ 12 ∧ len = w.toNat / 2 ^ 20 := by
  have mask : w &&& 0x000000FF#32 = 0x00000002#32 ↔ w.toNat % 256 = 2 := by
    have low : (w &&& 0x000000FF#32).toNat = w.toNat % 256 := Nat.and_two_pow_sub_one_eq_mod w.toNat 8
    rw [← BitVec.toNat_inj, low]
    rfl
  rw [decode_eq_command_iff, mask]
  constructor
  · rintro ⟨hwf, rfl⟩
    obtain ⟨hoff, hlen⟩ := wellFormed_edc_iff.1 hwf
    rw [toNat_encode_edc hoff hlen]
    omega
  · rintro ⟨hop, rfl, rfl⟩
    exact encode_edc_of_op hop

/-- Settles O3, pair by pair. -/
theorem matchMaskSelectsCommand : Obligations.MatchMaskSelectsCommand := fun _ =>
  ⟨decode_eq_command_iff_fullMask rfl rfl, fun _ _ => decode_eq_edc_iff_mask,
    decode_eq_command_iff_fullMask rfl rfl, decode_eq_command_iff_fullMask rfl rfl,
    decode_eq_command_iff_fullMask rfl rfl, decode_eq_command_iff_fullMask rfl rfl,
    decode_eq_command_iff_fullMask rfl rfl⟩

/-- Settles O4, by what the decoder can answer. -/
theorem illegalWordsExactly : Obligations.IllegalWordsExactly := by
  intro w
  obtain ⟨hop, h⟩ | ⟨i, _, _, hop, h⟩ | ⟨hop, h⟩ := decode_cases w
  · rw [h]
    exact iff_of_false (by simp) (by omega)
  · rw [h, decodeBare_eq]
    split
    · exact iff_of_false (by simp) (by omega)
    · exact iff_of_true ⟨_, rfl⟩ (by omega)
  · exact iff_of_true ⟨_, h⟩ (.inl hop)

/-- Settles O5: closed words. -/
theorem sampleWordsDecode : Obligations.SampleWordsDecode := by
  unfold Obligations.SampleWordsDecode
  decide

end Sys2Proof

/-! ### ILLEGAL words (R74, R75, R173) -/

namespace Sys2Proof.Machine

/-- A word that decodes to ILLEGAL completes with ILLEGAL_CMD (R42). -/
theorem step_of_engineNext_illegal {s : State} {w : Word} {why : IllegalReason} (h : EngineNext s w)
    (hw : decode w = .illegal why) : step s = .next (complete .illegalCmd s) := by
  obtain ⟨hs, hturn, hpend⟩ := h
  rw [step_of_running hs, event_engine hturn, engineStep, hpend]
  simp only [decodeBytes_wordBytes, hw]
  rfl

/-- Settles O7: acceptance does not look at the word, and the completion step finds it ILLEGAL. -/
theorem illegalWordWritesNothing : Obligations.IllegalWordWritesNothing := by
  refine ⟨rfl, fun s w hillegal => ⟨fun rest hnext hbusy hfatal => ?_, fun hnext => ?_⟩⟩
  · have accepted := memWrite_cmd (s := taken s rest) w hbusy
    rw [accept_of_not_fatal (s := taken s rest) w hfatal] at accepted
    exact ⟨_, step_of_memWrite hnext accepted, rfl, rfl, rfl⟩
  · obtain ⟨why, hw⟩ := (illegalWordsExactly w).2 hillegal
    exact step_of_engineNext_illegal hnext hw

/-! ### The statements wait and check (R79, R80) -/

theorem code_eq_zero_iff {e : Err} : e.code = 0#4 ↔ e = .none := by
  cases e <;> decide

theorem runStmt_wait (s : State) :
    runStmt .wait s = .next { s with host := if s.busy then .wait :: s.host else s.host } := by
  have busyBit : s.statusWord.getLsbD 0 = s.busy := getLsbD_statusWord s 0
  simp only [runStmt, memRead_status, busyBit]
  split <;> rfl

theorem runStmt_check (s : State) : runStmt .check s = .next { s with
    reads := s.reads ++ [s.statusWord], checkFailed := s.checkFailed || decide (s.err ≠ .none) } := by
  have errBits : (s.statusWord.extractLsb' 8 4 != 0#4) = decide (s.err ≠ .none) := by
    rw [statusWord_err, Bool.eq_iff_iff, bne_iff_ne, decide_eq_true_iff]
    exact code_eq_zero_iff.not
  simp only [runStmt, memRead_status, errBits]

/-- Settles O56: both statements read STATUS, BUSY in its bit 0 and ERR in its bits [11:8]. -/
theorem waitAndCheckReadStatus : Obligations.WaitAndCheckReadStatus := fun s rest =>
  ⟨fun h => by rw [step_of_hostNext h, runStmt_wait]; rfl, fun h => by rw [step_of_hostNext h, runStmt_check]; rfl⟩

/-! ### The pseudo-instructions (R79, R80) -/

/-- A fill is one byte write at each of the offsets from `a` on. -/
theorem byteWrites_replicate (a n : Nat) (b : Byte) : byteWrites a (List.replicate n b) =
    (List.range n).map fun k => .write (BitVec.ofNat 16 (a + k)) 1 (b.setWidth 32) := by
  induction n generalizing a with
  | zero => rfl
  | succ n ih =>
    rw [List.replicate_succ, byteWrites, ih, List.range_succ_eq_map, List.map_cons, List.map_map]
    simp [Function.comp_def, Nat.add_right_comm, Nat.add_assoc]

/-- Settles O58; EDCS is EDC of the first 2064 bytes. -/
theorem pseudoInstructionsExpand : Obligations.PseudoInstructionsExpand :=
  ⟨fun _ => rfl, rfl, fun _ => rfl, fun a n b => byteWrites_replicate a.toNat n b⟩

end Sys2Proof.Machine

/-! ### The field product is associative with the generator (R9, R92) -/

namespace Sys2Proof.Machine

/-- Multiplication of a fixed polynomial is additive in the other factor: a bit of a sum adds its shifted copy as often,
modulo two, as the two parts do. -/
theorem polyMul_xor_right (n : Nat) (a : BitVec 15) (b c : Byte) :
    polyMul n a (b ^^^ c) = polyMul n a b ^^^ polyMul n a c := by
  induction n generalizing a b c with
  | zero => simp [polyMul]
  | succ n ih =>
    have lowBit : (if (b ^^^ c).getLsbD 0 then a else 0#15) =
        (if b.getLsbD 0 then a else 0#15) ^^^ (if c.getLsbD 0 then a else 0#15) := by
      rw [BitVec.getLsbD_xor]
      cases b.getLsbD 0 <;> cases c.getLsbD 0 <;> simp
    rw [polyMul, polyMul, polyMul, BitVec.ushiftRight_xor_distrib, ih, lowBit]
    ac_rfl

/-- A map of the field that respects its sum. -/
def IsAdditive (f : Byte → Byte) : Prop := ∀ a b, f (a ^^^ b) = f a ^^^ f b

theorem gfMul_isAdditive_left (b : Byte) : IsAdditive fun a => gfMul a b := fun a a' => fieldProductDistributes a a' b

theorem gfMul_isAdditive_right (a : Byte) : IsAdditive (gfMul a) := fun b c => by
  rw [gfMul, polyMul_xor_right, polyReduce_xor, BitVec.setWidth_xor, gfMul, gfMul]

theorem IsAdditive.comp {f g : Byte → Byte} (hf : IsAdditive f) (hg : IsAdditive g) : IsAdditive fun a => f (g a) :=
  fun a b => (congrArg f (hg a b)).trans (hf (g a) (g b))

theorem IsAdditive.map_zero {f : Byte → Byte} (hf : IsAdditive f) : f 0#8 = 0#8 := by
  simpa using hf 0#8 0#8

theorem IsAdditive.map_xorSum {f : Byte → Byte} (hf : IsAdditive f) (n : Nat) (g : Nat → Byte) :
    f (xorSum n g) = xorSum n fun k => f (g k) := by
  induction n with
  | zero => exact hf.map_zero
  | succ n ih => rw [xorSum, hf, ih, xorSum]

/-- A byte is the field sum of its bits. -/
theorem xorSum_bits (x : Byte) : (xorSum 8 fun k => x &&& BitVec.twoPow 8 k) = x := by
  ext i hi
  simp only [xorSum, BitVec.getElem_xor, BitVec.getElem_and, BitVec.getElem_twoPow, BitVec.getElem_zero]
  grind

/-- IsAdditive maps that agree on the eight powers of two agree. -/
theorem IsAdditive.ext {f g : Byte → Byte} (hf : IsAdditive f) (hg : IsAdditive g)
    (h : ∀ k < 8, f (BitVec.twoPow 8 k) = g (BitVec.twoPow 8 k)) (x : Byte) : f x = g x := by
  rw [← xorSum_bits x, hf.map_xorSum, hg.map_xorSum]
  refine xorSum_congr fun k hk => ?_
  rw [BitVec.and_twoPow]
  split
  · exact h k hk
  · rw [hf.map_zero, hg.map_zero]

@[simp] theorem gfMul_zero_left (b : Byte) : gfMul 0#8 b = 0#8 := (gfMul_isAdditive_left b).map_zero

@[simp] theorem gfMul_zero_right (a : Byte) : gfMul a 0#8 = 0#8 := (gfMul_isAdditive_right a).map_zero

theorem gfMul_one_left (b : Byte) : gfMul 0x01#8 b = b :=
  (gfMul_isAdditive_right 0x01#8).ext (g := id) (fun _ _ => rfl) (by decide +kernel) b

/-- Both sides are additive in `a` and in `b`, so the powers of two decide it. -/
theorem gfMul_generator_assoc (a b : Byte) : gfMul (gfMul 0x02#8 a) b = gfMul 0x02#8 (gfMul a b) := by
  have basis : ∀ k < 8, ∀ l < 8, gfMul (gfMul 0x02#8 (BitVec.twoPow 8 k)) (BitVec.twoPow 8 l) =
      gfMul 0x02#8 (gfMul (BitVec.twoPow 8 k) (BitVec.twoPow 8 l)) := by decide +kernel
  refine ((gfMul_isAdditive_left b).comp (gfMul_isAdditive_right 0x02#8)).ext
    ((gfMul_isAdditive_right 0x02#8).comp (gfMul_isAdditive_left b)) (fun k hk => ?_) a
  exact (gfMul_isAdditive_right _).ext ((gfMul_isAdditive_right 0x02#8).comp (gfMul_isAdditive_right _)) (basis k hk) b

/-! ### The generator 0x02 has order 255 (R9) -/

theorem repeatN_eq_iterate {α : Type} (f : α → α) (n : Nat) (x : α) : repeatN f n x = f^[n] x := by
  induction n generalizing x with
  | zero => rfl
  | succ n ih => exact ih (f x)

theorem alphaPow_eq_iterate (i : Nat) : alphaPow i = (gfMul 0x02#8)^[i] 0x01#8 := repeatN_eq_iterate _ _ _

theorem alphaPow_succ (i : Nat) : alphaPow (i + 1) = gfMul 0x02#8 (alphaPow i) := by
  rw [alphaPow_eq_iterate, alphaPow_eq_iterate, Function.iterate_succ_apply']

theorem gfMul_alphaPow (i j : Nat) : gfMul (alphaPow i) (alphaPow j) = alphaPow (i + j) := by
  induction i with
  | zero => rw [Nat.zero_add]; exact gfMul_one_left _
  | succ i ih => rw [alphaPow_succ, gfMul_generator_assoc, ih, ← alphaPow_succ, Nat.add_right_comm]

theorem alphaPow_add_of (i j : Nat) {x y z : Byte} (hi : alphaPow i = x) (hj : alphaPow j = y) (hz : gfMul x y = z) :
    alphaPow (i + j) = z := by
  rw [← gfMul_alphaPow, hi, hj, hz]

/-- The powers that decide the order: 255 is a period, and 255 / 17, 255 / 5 and 255 / 3 are none. -/
theorem alphaPow_order :
    alphaPow 15 = 0x26#8 ∧ alphaPow 51 = 0x0A#8 ∧ alphaPow 85 = 0xD6#8 ∧ alphaPow 255 = 0x01#8 := by
  have pow15 : alphaPow 15 = 0x26#8 := by decide +kernel
  have pow17 : alphaPow 17 = 0x98#8 := by decide +kernel
  have pow34 : alphaPow 34 = 0x4E#8 := alphaPow_add_of 17 17 pow17 pow17 (by decide)
  have pow51 : alphaPow 51 = 0x0A#8 := alphaPow_add_of 34 17 pow34 pow17 (by decide)
  have pow85 : alphaPow 85 = 0xD6#8 := alphaPow_add_of 51 34 pow51 pow34 (by decide)
  have pow170 : alphaPow 170 = 0xD7#8 := alphaPow_add_of 85 85 pow85 pow85 (by decide)
  exact ⟨pow15, pow51, pow85, alphaPow_add_of 170 85 pow170 pow85 (by decide)⟩

theorem minimalPeriod_generator : Function.minimalPeriod (gfMul 0x02#8) 0x01#8 = 255 := by
  obtain ⟨pow15, pow51, pow85, pow255⟩ := alphaPow_order
  have period (n : Nat) : alphaPow n = 0x01#8 ↔ Function.minimalPeriod (gfMul 0x02#8) 0x01#8 ∣ n := by
    rw [alphaPow_eq_iterate]
    exact Function.isPeriodicPt_iff_minimalPeriod_dvd
  have divisors : ∀ d ∈ Nat.divisors 255, d = 255 ∨ d ∣ 15 ∨ d ∣ 51 ∨ d ∣ 85 := by decide +kernel
  obtain h | h | h | h := divisors _ (Nat.mem_divisors.2 ⟨(period 255).1 pow255, by simp⟩)
  · exact h
  · exact absurd ((period 15).2 h) (by simp [pow15])
  · exact absurd ((period 51).2 h) (by simp [pow51])
  · exact absurd ((period 85).2 h) (by simp [pow85])

theorem alphaPow_mod (i : Nat) : alphaPow (i % 255) = alphaPow i := by
  rw [alphaPow_eq_iterate, alphaPow_eq_iterate, ← minimalPeriod_generator, Function.iterate_mod_minimalPeriod_eq]

theorem alphaPow_inj {i j : Nat} (hi : i < 255) (hj : j < 255) (h : alphaPow i = alphaPow j) : i = j := by
  rw [alphaPow_eq_iterate, alphaPow_eq_iterate] at h
  exact Function.iterate_injOn_Iio_minimalPeriod (minimalPeriod_generator ▸ hi) (minimalPeriod_generator ▸ hj) h

/-- A power of the generator has an inverse power, so it is not 0. -/
theorem alphaPow_ne_zero (i : Nat) : alphaPow i ≠ 0#8 := by
  intro h
  have one : gfMul (alphaPow (255 * i - i)) (alphaPow i) = 0x01#8 := by
    rw [gfMul_alphaPow, ← alphaPow_mod, show (255 * i - i + i) % 255 = 0 by omega]
    rfl
  rw [h, gfMul_zero_right] at one
  exact absurd one (by decide)

/-- The 255 powers are as many as the nonzero bytes, so they are all of them. -/
theorem exists_alphaPow {x : Byte} (hx : x ≠ 0#8) : ∃ i < 255, alphaPow i = x := by
  have powers : (Finset.range 255).image alphaPow = Finset.univ.erase (0#8 : Byte) := by
    refine Finset.eq_of_subset_of_card_le (fun y hy => ?_) ?_
    · obtain ⟨i, _, rfl⟩ := Finset.mem_image.1 hy
      exact Finset.mem_erase.2 ⟨alphaPow_ne_zero i, Finset.mem_univ _⟩
    · rw [Finset.card_image_of_injOn fun i hi j hj h =>
        alphaPow_inj (Finset.mem_range.1 hi) (Finset.mem_range.1 hj) h,
        Finset.card_erase_of_mem (Finset.mem_univ _), Finset.card_univ, Finset.card_range,
        Fintype.card_congr BitVec.equivFin.toEquiv, Fintype.card_fin]
      decide
  have hmem : x ∈ (Finset.range 255).image alphaPow := powers ▸ Finset.mem_erase.2 ⟨hx, Finset.mem_univ _⟩
  simpa using hmem

/-! ### What `build_gf()` leaves in LOG and ILOG (R91, R94) -/

/-- The 9-bit working register holds a byte, and advancing it multiplies that byte by the generator. -/
theorem gfAdvance_eq : ∀ x : Byte, gfAdvance (x.setWidth 9) = (gfMul 0x02#8 x).setWidth 9 := by decide +kernel

/-- One round of the loop, with `alphaPow v` in the working register. -/
theorem gfLoop_alphaPow_succ (n v : Nat) (t : GfTables) : gfLoop (n + 1) v ((alphaPow v).setWidth 9) t =
    gfLoop n (v + 1) ((alphaPow (v + 1)).setWidth 9)
      { log := t.log.setIfInBounds (alphaPow v).toNat (BitVec.ofNat 8 v),
        ilog := t.ilog.setIfInBounds v (alphaPow v) } := by
  have sameIndex : ((alphaPow v).setWidth 9).toNat = (alphaPow v).toNat := BitVec.toNat_setWidth_of_le (by omega)
  have sameByte : ((alphaPow v).setWidth 9).setWidth 8 = alphaPow v := by simp
  rw [gfLoop, gfAdvance_eq, sameIndex, sameByte, alphaPow_succ]

/-- The loop fills the cells of its log values in ILOG with the powers, and no other cell. -/
theorem gfLoop_ilog {n v : Nat} (t : GfTables) (hv : v + n ≤ 256) (i : Nat) :
    (gfLoop n v ((alphaPow v).setWidth 9) t).ilog[i]? =
      if v ≤ i ∧ i < v + n then some (alphaPow i) else t.ilog[i]? := by
  induction n generalizing v t with
  | zero => rw [if_neg (by omega), gfLoop]
  | succ n ih =>
    rw [gfLoop_alphaPow_succ, ih _ (by omega)]
    by_cases hi : i = v
    · subst hi
      rw [if_neg (by omega), if_pos (by omega), Vector.getElem?_setIfInBounds_self_of_lt (by omega)]
    · simp only [show (v + 1 ≤ i ∧ i < v + 1 + n) ↔ (v ≤ i ∧ i < v + (n + 1)) by omega,
        Vector.getElem?_setIfInBounds_ne (Ne.symm hi)]

/-- A cell of LOG whose byte is no power the loop still meets is left alone. -/
theorem gfLoop_log_other {n v : Nat} (t : GfTables) {x : Byte} (hx : ∀ i, v ≤ i → i < v + n → alphaPow i ≠ x) :
    (gfLoop n v ((alphaPow v).setWidth 9) t).log[x.toNat]? = t.log[x.toNat]? := by
  induction n generalizing v t with
  | zero => rfl
  | succ n ih =>
    have here : (alphaPow v).toNat ≠ x.toNat := fun h => hx v le_rfl (by omega) (BitVec.eq_of_toNat_eq h)
    rw [gfLoop_alphaPow_succ, ih _ fun i h1 h2 => hx i (by omega) (by omega), Vector.getElem?_setIfInBounds_ne here]

/-- The loop writes the log value of each power it meets in LOG, and no later round meets that power again. -/
theorem gfLoop_log {n v : Nat} (t : GfTables) (hv : v + n ≤ 255) {i : Nat} (h1 : v ≤ i) (h2 : i < v + n) :
    (gfLoop n v ((alphaPow v).setWidth 9) t).log[(alphaPow i).toNat]? = some (BitVec.ofNat 8 i) := by
  induction n generalizing v t with
  | zero => omega
  | succ n ih =>
    rw [gfLoop_alphaPow_succ]
    obtain rfl | hlt : i = v ∨ v < i := by omega
    · rw [gfLoop_log_other _ fun j hj1 hj2 h => by have := alphaPow_inj (by omega) (by omega) h; omega]
      exact Vector.getElem?_setIfInBounds_self_of_lt (alphaPow i).isLt
    · exact ih _ (by omega) hlt (by omega)

theorem buildGf_ilog {i : Nat} (hi : i < 255) : buildGf.ilog[i]? = some (alphaPow i) :=
  (gfLoop_ilog (n := 255) (v := 0) GfTables.zero (by omega) i).trans (if_pos (by omega))

theorem buildGf_log {i : Nat} (hi : i < 255) : buildGf.log[(alphaPow i).toNat]? = some (BitVec.ofNat 8 i) :=
  gfLoop_log (n := 255) (v := 0) GfTables.zero (by omega) (by omega) (by omega)

/-- ILOG[255] keeps the 0 that every cell starts with (R94). -/
theorem buildGf_ilog_last : buildGf.ilog[255]? = some 0#8 :=
  (gfLoop_ilog (n := 255) (v := 0) GfTables.zero (by omega) 255).trans (by simp [GfTables.zero])

/-- LOG[0] keeps the 0 that every cell starts with, for 0 is no power of the generator (R94). -/
theorem buildGf_log_zero : buildGf.log[0]? = some 0#8 :=
  (gfLoop_log_other (n := 255) (v := 0) (x := 0#8) GfTables.zero fun i _ _ => alphaPow_ne_zero i).trans
    (by simp [GfTables.zero])

theorem ilogAt_buildGf {i : Nat} (hi : i < 255) : buildGf.ilogAt i = alphaPow i := by
  rw [GfTables.ilogAt, buildGf_ilog hi, Option.getD_some]

/-- The log of a power is its exponent modulo 255. -/
theorem logAt_alphaPow (i : Nat) : buildGf.logAt (alphaPow i) = i % 255 := by
  have below : i % 255 < 255 := Nat.mod_lt _ (by omega)
  rw [← alphaPow_mod, GfTables.logAt, buildGf_log below, Option.getD_some, BitVec.toNat_ofNat]
  omega

/-! ### Product and quotient through the tables (R92, R93) -/

theorem gfMulByLog_alphaPow (i j : Nat) : gfMulByLog buildGf (alphaPow i) (alphaPow j) = alphaPow (i + j) := by
  rw [gfMulByLog, if_neg (by simp [alphaPow_ne_zero]), logAt_alphaPow, logAt_alphaPow, ← Nat.add_mod,
    ilogAt_buildGf (Nat.mod_lt _ (by omega)), alphaPow_mod]

/-- The two forms of the product agree: both are 0 for a zero factor, and both add the exponents of two powers. -/
theorem gfMul_eq_gfMulByLog (a b : Byte) : gfMul a b = gfMulByLog buildGf a b := by
  by_cases hzero : a = 0#8 ∨ b = 0#8
  · rw [gfMulByLog, if_pos hzero]
    obtain rfl | rfl := hzero
    · exact gfMul_zero_left b
    · exact gfMul_zero_right a
  · obtain ⟨ha, hb⟩ := not_or.1 hzero
    obtain ⟨i, _, rfl⟩ := exists_alphaPow ha
    obtain ⟨j, _, rfl⟩ := exists_alphaPow hb
    rw [gfMul_alphaPow, gfMulByLog_alphaPow]

theorem gfMulByLog_comm (t : GfTables) (a b : Byte) : gfMulByLog t a b = gfMulByLog t b a := by
  simp only [gfMulByLog, or_comm, Nat.add_comm]

theorem gfMul_comm (a b : Byte) : gfMul a b = gfMul b a := by
  rw [gfMul_eq_gfMulByLog, gfMulByLog_comm, ← gfMul_eq_gfMulByLog]

/-- Settles O21: the form through LOG and ILOG is symmetric in its factors, so the product is, and 1 is a left unit. -/
theorem fieldProductTwoForms : Obligations.FieldProductTwoForms := fun a b =>
  ⟨gfMul_eq_gfMulByLog a b, gfMul_comm a b, (gfMul_comm a _).trans (gfMul_one_left a)⟩

theorem gfDiv_zero_divisor (t : GfTables) (a : Byte) : gfDiv t a 0#8 = none := if_pos rfl

theorem gfDiv_zero_dividend (t : GfTables) {b : Byte} (hb : b ≠ 0#8) : gfDiv t 0#8 b = some 0#8 := by
  rw [gfDiv, if_neg hb, if_pos rfl]

/-- The quotient takes the exponent of the divisor off that of the dividend. -/
theorem gfDiv_alphaPow (i j : Nat) : gfDiv buildGf (alphaPow (i + j)) (alphaPow j) = some (alphaPow i) := by
  have exponent : ((i + j) % 255 + 255 - j % 255) % 255 = i % 255 := by omega
  rw [gfDiv, if_neg (alphaPow_ne_zero j), if_neg (alphaPow_ne_zero _), logAt_alphaPow, logAt_alphaPow, exponent,
    ilogAt_buildGf (Nat.mod_lt _ (by omega)), alphaPow_mod]

/-- Settles O23: the product of two powers adds the exponents that the quotient subtracts. -/
theorem fieldQuotientUndoesProduct : Obligations.FieldQuotientUndoesProduct := by
  refine fun a b => ⟨fun hb => ⟨?_, gfDiv_zero_dividend _ hb⟩, gfDiv_zero_divisor _ a⟩
  by_cases ha : a = 0#8
  · rw [ha, gfMul_zero_left, gfDiv_zero_dividend _ hb]
  · obtain ⟨i, _, rfl⟩ := exists_alphaPow ha
    obtain ⟨j, _, rfl⟩ := exists_alphaPow hb
    rw [gfMul_alphaPow, gfDiv_alphaPow]

/-! ### LOG and ILOG after the build, and the coefficient vectors (R94, R95, R97 to R99) -/

/-- The build leaves the cells of `build_gf()` in LOG and ILOG (R101). -/
theorem log_ilog_of_build {t : Tables} (h : buildTables = some t) :
    t.log = buildGf.log.map some ∧ t.ilog = buildGf.ilog.map some := by
  obtain ⟨v1, v0, _, _, hb⟩ := buildTables_eq_some
  obtain rfl := Option.some.inj (h.symm.trans hb)
  exact ⟨rfl, rfl⟩

/-- LOG and ILOG hold a power and its exponent at each other's index. -/
theorem cells_of_build {t : Tables} (h : buildTables = some t) {i : Nat} (hi : i < 255) :
    t.log[(alphaPow i).toNat]? = some (some (BitVec.ofNat 8 i)) ∧ t.ilog[i]? = some (some (alphaPow i)) := by
  obtain ⟨hlog, hilog⟩ := log_ilog_of_build h
  rw [hlog, hilog, Vector.getElem?_map, Vector.getElem?_map, buildGf_log hi, buildGf_ilog hi]
  exact ⟨rfl, rfl⟩

/-- The two cells no power reaches hold 0 (R94). -/
theorem zeroCells_of_build {t : Tables} (h : buildTables = some t) :
    t.log[0]? = some (some 0#8) ∧ t.ilog[255]? = some (some 0#8) := by
  obtain ⟨hlog, hilog⟩ := log_ilog_of_build h
  rw [hlog, hilog, Vector.getElem?_map, Vector.getElem?_map, buildGf_log_zero, buildGf_ilog_last]
  exact ⟨rfl, rfl⟩

/-- The exponents of the ten cells R95 names. -/
theorem alphaPow_named : alphaPow 0 = 0x01#8 ∧ alphaPow 1 = 0x02#8 ∧ alphaPow 8 = 0x1D#8 ∧ alphaPow 25 = 0x03#8 ∧
    alphaPow 254 = 0x8E#8 ∧ alphaPow 24 = 0x8F#8 := by
  have pow1 : alphaPow 1 = 0x02#8 := by decide
  have pow2 : alphaPow 2 = 0x04#8 := by decide
  have pow8 : alphaPow 8 = 0x1D#8 := by decide +kernel
  have pow16 : alphaPow 16 = 0x4C#8 := alphaPow_add_of 8 8 pow8 pow8 (by decide)
  have pow24 : alphaPow 24 = 0x8F#8 := alphaPow_add_of 16 8 pow16 pow8 (by decide)
  have pow25 : alphaPow 25 = 0x03#8 := alphaPow_add_of 24 1 pow24 pow1 (by decide)
  have pow50 : alphaPow 50 = 0x05#8 := alphaPow_add_of 25 25 pow25 pow25 (by decide)
  have pow100 : alphaPow 100 = 0x11#8 := alphaPow_add_of 50 50 pow50 pow50 (by decide)
  have pow125 : alphaPow 125 = 0x33#8 := alphaPow_add_of 100 25 pow100 pow25 (by decide)
  have pow127 : alphaPow 127 = 0xCC#8 := alphaPow_add_of 125 2 pow125 pow2 (by decide)
  exact ⟨rfl, pow1, pow8, pow25, alphaPow_add_of 127 127 pow127 pow127 (by decide), pow24⟩

/-- Settles O20: a nonzero byte is a power, and an index other than 255 is an exponent. -/
theorem logTablesAreInverse : Obligations.LogTablesAreInverse := by
  intro t h
  obtain ⟨pow0, pow1, pow8, pow25, pow254, pow24⟩ := alphaPow_named
  have cell {i : Nat} {x : Byte} (hx : alphaPow i = x) (hi : i < 255) := hx ▸ cells_of_build h hi
  refine ⟨fun x hx => ?_, fun i hi => ?_, (cell pow0 (by omega)).2, (cell pow1 (by omega)).2, (cell pow8 (by omega)).2,
    (cell pow25 (by omega)).2, (cell pow254 (by omega)).2, (cell pow0 (by omega)).1, (cell pow1 (by omega)).1,
    (cell pow25 (by omega)).1, (cell pow254 (by omega)).1, (cell pow24 (by omega)).1, zeroCells_of_build h⟩
  · obtain ⟨i, hi, rfl⟩ := exists_alphaPow hx
    have index : (BitVec.ofNat 8 i).toNat = i := Nat.mod_eq_of_lt (by omega)
    obtain ⟨hlog, hilog⟩ := cells_of_build h hi
    exact ⟨_, hlog, by rw [index, hilog]⟩
  · have below : i.toNat < 255 := by bv_omega
    obtain ⟨hlog, hilog⟩ := cells_of_build h below
    exact ⟨_, hilog, by rw [hlog, BitVec.ofNat_toNat, BitVec.setWidth_eq]⟩

/-- Settles O24: the two vectors as their listings, which differ by 1 in every place. -/
theorem coefficientVectors : Obligations.CoefficientVectors :=
  ⟨vectorV1_eq, by rw [vectorV1_eq, vectorV0_eq]; decide⟩

end Sys2Proof.Machine

/-! ### INIT and the table guard (R90, R102, R103) -/

namespace Sys2Proof.Machine

/-- A completion step that goes on keeps tables that TV guards (R102). -/
theorem engineStep_tables {s t : State} (htv : s.tv = true) (h : engineStep s = .next t) :
    t.tv = true ∧ t.tables = s.tables := by
  obtain ⟨w, e, s', _, hframe, rfl⟩ := engineStep_completes h
  obtain ⟨hsame, htables⟩ | ⟨hclear, _⟩ := hframe.guard
  · exact ⟨hsame.trans htv, htables⟩
  · simp [htv] at hclear

theorem accept_tables (w : Word) (s : State) : (accept w s).tv = s.tv ∧ (accept w s).tables = s.tables := by
  rw [accept]
  split <;> exact ⟨rfl, rfl⟩

/-- Settles O12, by the kinds of event: a completion step, an idle step, a host statement, or the record of a fault. -/
theorem tablesStayUntilReset : Obligations.TablesStayUntilReset := by
  intro s t htv hstep
  obtain ⟨hs, hevent | ⟨f, _, rfl⟩⟩ := step_eq_next hstep
  · obtain ⟨_, hengine⟩ | ⟨_, _, rfl⟩ | ⟨hturn, st, rest, hhost, hstmt⟩ := event_eq_next hevent
    · exact .inl (engineStep_tables htv hengine)
    · exact .inl ⟨htv, rfl⟩
    · obtain ⟨w, _, _, rfl⟩ | ⟨rfl, _⟩ | hframe := runStmt_cases hstmt
      · obtain ⟨hsame, htables⟩ := accept_tables w (taken s rest)
        exact .inl ⟨hsame.trans htv, htables⟩
      · exact .inr ⟨rest, hs, hturn, hhost⟩
      · rw [hframe.rest]
        exact .inl ⟨htv, rfl⟩
  · exact .inl ⟨htv, rfl⟩

/-- INIT puts the built tables in place and completes; nothing else changes. -/
theorem exec_init {s : State} (h : TablesOk s) :
    ∃ tb, buildTables = some tb ∧ ensureTables s = .ok (setTables tb s) ∧
      exec .init s = .next (complete .none (setTables tb s)) := by
  obtain ⟨tb, htb, hbuild⟩ := ensureTables_of_ok h
  exact ⟨tb, htb, hbuild, exec_of_effect_ok (i := .init) hbuild⟩

/-- Settles O19: the cells of the built tables, and the updates of `setTables` and `complete` field by field. -/
theorem initBuildsTables : Obligations.InitBuildsTables := by
  intro s h
  obtain ⟨tb, htb, _, hexec⟩ := exec_init h
  refine ⟨_, hexec, ⟨rfl, htb⟩, fun r hr v => ?_, crcAt_of_build htb, rfl, rfl, fun htv => ?_, rfl⟩
  · exact ⟨_, pqtAt_of_build htb hr v, highLane_pqtEntry _ _ _, lowLane_pqtEntry _ _ _⟩
  · have built : buildTables = some s.tables := by simpa [TablesOk, htv] using h
    exact Option.some.inj (htb.symm.trans built)

/-! ### A command does not see the completion update of the one before (R42) -/

theorem writeHeader_complete (l : Nat) (e : Err) (s : State) :
    writeHeader l (complete e s) = complete e (writeHeader l s) := by
  simp only [writeHeader, writeBuf_complete]

/-- An effect neither reads STATUS and PEND nor writes them: the completion update passes through it. -/
def CommutesWithCompletion (f : State → Eff State) : Prop :=
  ∀ e s, f (complete e s) = (f s).map (complete e)

namespace CommutesWithCompletion

theorem pure {g : State → State} (h : ∀ e s, g (complete e s) = complete e (g s)) :
    CommutesWithCompletion fun s => Pure.pure (g s) := fun e s => congrArg Except.ok (h e s)

theorem bind {f g : State → Eff State} (hf : CommutesWithCompletion f) (hg : CommutesWithCompletion g) :
    CommutesWithCompletion fun s => f s >>= g := by
  intro e s
  show f (complete e s) >>= g = (f s >>= g).map (complete e)
  rw [hf]
  cases f s with
  | error st => rfl
  | ok u => exact hg e u

/-- A read that the completion update does not change, and an effect of what it answers. -/
theorem read {α : Type} {r : State → Eff α} {k : α → State → Eff State} (hr : ∀ e s, r (complete e s) = r s)
    (hk : ∀ v, CommutesWithCompletion (k v)) : CommutesWithCompletion fun s => r s >>= fun v => k v s := by
  intro e s
  show (r (complete e s) >>= fun v => k v (complete e s)) = (r s >>= fun v => k v s).map (complete e)
  rw [hr]
  cases r s with
  | error st => rfl
  | ok v => exact hk v e s

theorem foldlM {α : Type} {f : State → α → Eff State} (hf : ∀ x, CommutesWithCompletion fun s => f s x)
    (l : List α) : CommutesWithCompletion (l.foldlM f) := by
  induction l with
  | nil => exact fun _ _ => rfl
  | cons x l ih => exact (hf x).bind ih

theorem ensureTables : CommutesWithCompletion ensureTables := by
  intro e s
  unfold Machine.ensureTables
  rw [complete_tv]
  split
  · rfl
  · split <;> rfl

theorem parityPass (steps : Nat → List (Nat × Nat)) (base half : Nat) (l : List Nat) :
    CommutesWithCompletion (l.foldlM (parityPair steps base half)) :=
  .foldlM (fun _ => .read (fun _ _ => rfl) fun _ => .pure fun _ _ => rfl) l

theorem edcEffect (off len : Nat) : CommutesWithCompletion (edcEffect off len) :=
  .read (fun _ _ => rfl) fun _ => ensureTables.bind <| .read (fun _ _ => rfl) fun _ => .read (fun _ _ => rfl) fun _ =>
    .pure fun _ _ => rfl

theorem edcwEffect : CommutesWithCompletion edcwEffect :=
  ensureTables.bind <| .read (fun _ _ => rfl) fun _ => .read (fun _ _ => rfl) fun _ => .pure fun _ _ => rfl

theorem pparEffect : CommutesWithCompletion pparEffect := ensureTables.bind (parityPass _ _ _ _)

theorem qparEffect : CommutesWithCompletion qparEffect := ensureTables.bind (parityPass _ _ _ _)

theorem hdrEffect : CommutesWithCompletion hdrEffect :=
  .read (fun _ _ => rfl) fun l => .read (fun _ _ => rfl) fun _ => .pure (writeHeader_complete l.toNat)

theorem encodeEffect : CommutesWithCompletion encodeEffect :=
  .read (fun _ _ => rfl) fun _ => .read (fun _ _ => rfl) fun _ => .read (fun _ _ => rfl) fun _ =>
    .read (fun _ _ => rfl) fun _ => ensureTables.bind <| hdrEffect.bind <| edcwEffect.bind <| pparEffect.bind qparEffect

theorem effectOf (i : Instr) : CommutesWithCompletion (effectOf i) := by
  cases i with
  | init => exact ensureTables
  | edc off len => exact edcEffect off len
  | edcw => exact edcwEffect
  | ppar => exact pparEffect
  | qpar => exact qparEffect
  | hdr => exact hdrEffect
  | encode => exact encodeEffect

end CommutesWithCompletion

/-- The completion update at the end of a step replaces an earlier one. -/
theorem finish_complete (e : Err) (s : State) (x : Eff State) :
    finish (complete e s) (x.map (complete e)) = finish s x := by
  rcases x with (e' | f) | u
  · cases e' <;> rfl
  · rfl
  · rfl

/-- A command run after another one's completion update does what it does without it. -/
theorem exec_complete (i : Instr) (e : Err) (s : State) : exec i (complete e s) = exec i s := by
  rw [exec_eq_finish, exec_eq_finish, CommutesWithCompletion.effectOf, finish_complete]

/-! ### INIT first, or not (R103) -/

/-- Once the guard has put the tables in place, it leaves them (R102). -/
theorem ensureTables_setTables (tb : Tables) (s : State) :
    ensureTables (setTables tb s) = .ok (setTables tb s) := if_pos rfl

/-- Every command but HDR starts, past its operand checks, with the table guard, so it makes no difference that the guard
has run before. -/
theorem effectOf_setTables {i : Instr} (hi : i ≠ .hdr) {s : State} {tb : Tables}
    (h : ensureTables s = .ok (setTables tb s)) : effectOf i (setTables tb s) = effectOf i s := by
  have guard : ensureTables (setTables tb s) = ensureTables s := (ensureTables_setTables tb s).trans h.symm
  cases i with
  | hdr => exact absurd rfl hi
  | init => exact guard
  | edc off len => simp only [effectOf, edcEffect, guard]
  | edcw => simp only [effectOf, edcwEffect, guard]
  | ppar => simp only [effectOf, pparEffect, guard]
  | qpar => simp only [effectOf, qparEffect, guard]
  | encode => simp only [effectOf, encodeEffect, guard, readDlen, readLba, setTables_dlen, setTables_lba]

/-- Settles O18: the command does not see INIT's completion update, and its own table guard finds the tables built. -/
theorem initIsOptional : Obligations.InitIsOptional := by
  intro i s u t hi h hinit hexec herr
  obtain ⟨tb, _, hbuild, hbuilt⟩ := exec_init h
  obtain rfl := Host.Outcome.next.inj (hbuilt.symm.trans hinit)
  obtain ⟨s', heffect, rfl, _⟩ | ⟨hbad, _⟩ := exec_eq_next hexec
  · rw [exec_complete]
    exact exec_of_effect_ok ((effectOf_setTables hi hbuild).trans heffect)
  · rw [herr] at hbad
    simp at hbad

end Sys2Proof.Machine

/-! ### The two forms of the CRC table (R115 to R117) -/

namespace Sys2Proof.Machine

theorem reverse_xor {w : Nat} (x y : BitVec w) : (x ^^^ y).reverse = x.reverse ^^^ y.reverse := by
  ext i hi
  simp only [BitVec.getElem_reverse, BitVec.getElem_xor, BitVec.getMsbD_xor]

theorem reverse_shiftLeft {w : Nat} (x : BitVec w) (n : Nat) : (x <<< n).reverse = x.reverse >>> n := by
  ext i hi
  rw [BitVec.getElem_reverse, BitVec.getMsbD_shiftLeft, BitVec.getElem_ushiftRight, BitVec.getLsbD_reverse, Nat.add_comm]

/-- A round of R115 is, bit-reversed, a round of R117: it shifts the other way, and its polynomial is the reflected one. -/
theorem reverse_crcRound (r : Word) : (crcRound r).reverse = crcRoundLsb r.reverse := by
  have poly : Config.edcPoly.reverse = Config.edcPolyReflected := by decide +kernel
  have bit : r.reverse.getLsbD 0 = r.getLsbD 31 := BitVec.getLsbD_reverse
  rw [crcRound, crcRoundLsb, bit]
  split
  · rw [reverse_xor, reverse_shiftLeft, poly]
  · rw [reverse_shiftLeft, BitVec.xor_zero]

theorem reverse_repeatN_crcRound (n : Nat) (r : Word) :
    (repeatN crcRound n r).reverse = repeatN crcRoundLsb n r.reverse := by
  induction n generalizing r with
  | zero => rfl
  | succ n ih => rw [repeatN, repeatN, ih, reverse_crcRound]

theorem reverse_reflectedIndex (n : Byte) : (n.reverse.setWidth 32 <<< 24 : Word).reverse = n.setWidth 32 := by
  rw [reverse_shiftLeft]
  ext i hi
  rw [BitVec.getElem_ushiftRight, BitVec.getLsbD_reverse, BitVec.getMsbD_setWidth, BitVec.getMsbD_reverse,
    BitVec.getElem_setWidth]
  simp

/-- Settles O25: the final reflection turns every round into one of the other form, and undoes that of the index. -/
theorem crcTableTwoForms : Obligations.CrcTableTwoForms := fun n => by
  rw [crcEntry, reverse_repeatN_crcRound, reverse_reflectedIndex, crcEntryLsb]

/-! ### The table form of the checksum and the bit-serial form (R119, R122) -/

theorem crcRoundLsb_xor (x y : Word) : crcRoundLsb (x ^^^ y) = crcRoundLsb x ^^^ crcRoundLsb y := by
  have reduce (a b : Bool) (p : Word) :
      (if a ^^ b then p else 0#32) = (if a then p else 0#32) ^^^ (if b then p else 0#32) := by
    cases a <;> cases b <;> simp
  rw [crcRoundLsb, crcRoundLsb, crcRoundLsb, BitVec.ushiftRight_xor_distrib, BitVec.getLsbD_xor, reduce]
  ac_rfl

theorem repeatN_crcRoundLsb_xor (n : Nat) (x y : Word) :
    repeatN crcRoundLsb n (x ^^^ y) = repeatN crcRoundLsb n x ^^^ repeatN crcRoundLsb n y := by
  induction n generalizing x y with
  | zero => rfl
  | succ n ih => rw [repeatN, crcRoundLsb_xor, ih, repeatN, repeatN]

/-- While the bits shifted out are clear, the rounds only shift. -/
theorem repeatN_crcRoundLsb_of_low_clear {n : Nat} {w : Word} (h : ∀ i < n, w.getLsbD i = false) :
    repeatN crcRoundLsb n w = w >>> n := by
  induction n generalizing w with
  | zero => exact (BitVec.ushiftRight_zero w).symm
  | succ n ih =>
    have round : crcRoundLsb w = w >>> 1 := by
      rw [crcRoundLsb, h 0 n.succ_pos, if_neg Bool.false_ne_true, BitVec.xor_zero]
    have clear (i : Nat) (hi : i < n) : (w >>> 1).getLsbD i = false := by
      rw [BitVec.getLsbD_ushiftRight]
      exact h (1 + i) (by omega)
    rw [repeatN, round, ih clear, ← BitVec.shiftRight_add, Nat.add_comm]

theorem setWidth_byte_ushiftRight_eight (x : Byte) : (x.setWidth 32 : Word) >>> 8 = 0#32 := by
  rw [← BitVec.setWidth_ushiftRight (by decide), BitVec.ushiftRight_eq_zero (Nat.le_refl 8), BitVec.setWidth_zero]

/-- Eight rounds turn the low byte into its table entry and only shift the bytes above it. -/
theorem repeatN_crcRoundLsb_eight (w : Word) :
    repeatN crcRoundLsb 8 w = crcEntry (w.setWidth 8) ^^^ (w >>> 8) := by
  let low : Word := (w.setWidth 8).setWidth 32
  have clear (i : Nat) (hi : i < 8) : (low ^^^ w).getLsbD i = false := by
    simp [low, hi, Nat.lt_trans hi]
  calc repeatN crcRoundLsb 8 w
      = repeatN crcRoundLsb 8 (low ^^^ (low ^^^ w)) := by rw [← BitVec.xor_assoc, BitVec.xor_self, BitVec.zero_xor]
    _ = crcEntry (w.setWidth 8) ^^^ ((low ^^^ w) >>> 8) := by
        rw [repeatN_crcRoundLsb_xor, repeatN_crcRoundLsb_of_low_clear clear, crcTableTwoForms, crcEntryLsb]
    _ = crcEntry (w.setWidth 8) ^^^ (w >>> 8) := by
        rw [BitVec.ushiftRight_xor_distrib, setWidth_byte_ushiftRight_eight, BitVec.zero_xor]

/-- One byte of the checksum in the table form is one byte of the bit-serial form. -/
theorem crcEntry_edcIndex_xor (acc : Word) (x : Byte) :
    crcEntry (edcIndex acc x) ^^^ (acc >>> 8) = repeatN crcRoundLsb 8 (acc ^^^ x.setWidth 32) := by
  rw [repeatN_crcRoundLsb_eight, BitVec.ushiftRight_xor_distrib, setWidth_byte_ushiftRight_eight, BitVec.xor_zero, edcIndex]

/-- Settles O26, byte by byte. -/
theorem checksumEqualsBitSerial : Obligations.ChecksumEqualsBitSerial := fun bytes => by
  simp only [edcOf, edcFrom, edcBitSerial, crcEntry_edcIndex_xor]

/-! ### Streaming, linearity and corner values (R123, R124) -/

/-- Settles O27: the checksum is a left fold. -/
theorem checksumStreams : Obligations.ChecksumStreams := fun _ _ => List.foldl_append

theorem edcFrom_cons (acc : Word) (x : Byte) (bytes : List Byte) :
    edcFrom acc (x :: bytes) = edcFrom (repeatN crcRoundLsb 8 (acc ^^^ x.setWidth 32)) bytes := by
  rw [← crcEntry_edcIndex_xor, edcFrom, edcFrom, List.foldl_cons]

/-- The checksum is additive in its initial value and its bytes together. -/
theorem edcFrom_xor {a b : List Byte} (h : a.length = b.length) (p q : Word) :
    edcFrom (p ^^^ q) (List.zipWith (fun x y => x ^^^ y) a b) = edcFrom p a ^^^ edcFrom q b := by
  induction a generalizing b p q with
  | nil =>
    obtain rfl := List.length_eq_zero_iff.1 h.symm
    rfl
  | cons x a ih =>
    cases b with
    | nil => simp at h
    | cons y b =>
      have regroup : p ^^^ q ^^^ (x ^^^ y).setWidth 32 = (p ^^^ x.setWidth 32) ^^^ (q ^^^ y.setWidth 32) := by
        rw [BitVec.setWidth_xor]
        ac_rfl
      rw [List.zipWith_cons_cons, edcFrom_cons, edcFrom_cons, edcFrom_cons, regroup, repeatN_crcRoundLsb_xor,
        ih (Nat.succ.inj h)]

theorem edcOf_replicate_zero (n : Nat) : edcOf (List.replicate n 0x00#8) = 0#32 := by
  induction n with
  | zero => rfl
  | succ n ih =>
    have byte : repeatN crcRoundLsb 8 (0#32 ^^^ (0x00#8).setWidth 32) = 0#32 := by decide
    rw [List.replicate_succ, edcOf, edcFrom_cons, byte]
    exact ih

/-- The bit stream of 0x55 bytes is that of 0xAA bytes one round later, so their checksums differ by one round. -/
theorem crcRoundLsb_edcFrom_replicate (n : Nat) (acc : Word) :
    crcRoundLsb (edcFrom acc (List.replicate n 0xAA#8)) = edcFrom (crcRoundLsb acc) (List.replicate n 0x55#8) := by
  induction n generalizing acc with
  | zero => rfl
  | succ n ih =>
    have byte : crcRoundLsb ((0xAA#8).setWidth 32) = (0x55#8).setWidth 32 := by decide
    have commute (w : Word) : crcRoundLsb (repeatN crcRoundLsb 8 w) = repeatN crcRoundLsb 8 (crcRoundLsb w) := rfl
    rw [List.replicate_succ, List.replicate_succ, edcFrom_cons, edcFrom_cons, ih, commute, crcRoundLsb_xor, byte]

theorem edcOf_replicate_aa : edcOf (List.replicate 2064 0xAA#8) = 0x698F520A#32 := by
  rw [checksumEqualsBitSerial]
  decide +kernel

theorem edcOf_replicate_55 : edcOf (List.replicate 2064 0x55#8) = 0x34C7A905#32 := by
  have round : crcRoundLsb 0x698F520A#32 = 0x34C7A905#32 := by decide
  have shifted := crcRoundLsb_edcFrom_replicate 2064 0#32
  rw [← edcOf, edcOf_replicate_aa, round] at shifted
  exact shifted.symm

/-- The corner values of short sequences. -/
theorem edcOf_short : edcOf [] = 0#32 ∧ edcOf [0x00#8] = 0#32 ∧ edcOf [0x01#8] = 0x90910101#32 ∧
    edcOf [0x80#8] = 0xD8018001#32 ∧ edcOf [0xFF#8] = 0x7070FF00#32 ∧ edcOf [0x01#8, 0x00#8] = 0x90019000#32 ∧
    edcOf [0x00#8, 0x01#8] = 0x90910101#32 := by
  simp only [checksumEqualsBitSerial _]
  decide

/-- Settles O28: the rounds of every byte are additive, and the two zero initial values add up to zero. -/
theorem checksumIsLinear : Obligations.ChecksumIsLinear := by
  obtain ⟨empty, byte00, byte01, byte80, byteFF, bytes0100, bytes0001⟩ := edcOf_short
  exact ⟨fun _ _ h => edcFrom_xor h 0#32 0#32, empty, byte00, byte01, byte80, byteFF, bytes0100, bytes0001,
    edcOf_replicate_zero 2064, edcOf_replicate_aa, edcOf_replicate_55⟩

/-! ### What EDC computes (R119, R120) -/

/-- With its range legal and written, the effect of EDC is the table build, then its one register write. -/
theorem edcEffect_of_read {off len : Nat} {d : Nat → Byte} {s : State} (htables : TablesOk s) (hlen : off + len ≤ 2352)
    (hd : ∀ k < len, s.buf.read (off + k) = some (d (off + k))) :
    ∃ t, buildTables = some t ∧
      edcEffect off len s = .ok (setEdcResult (edcOf (bytesFrom d off len)) (setTables t s)) := by
  obtain ⟨t, ht, hbuild⟩ := ensureTables_of_ok htables
  have hrange : readRange (setTables t s) off len = .ok (bytesFrom d off len) := readRange_of_read hd
  refine ⟨t, ht, ?_⟩
  rw [edcEffect, checkRange_ok hlen, eff_bind_ok, hbuild, eff_bind_ok, hrange, eff_bind_ok,
    calcEdc_of_build (s := setTables t s) ht, eff_bind_ok, eff_pure]

/-- Settles O29: EDC completes with that effect, and each conjunct reads one field of it. -/
theorem edcComputesRange : Obligations.EdcComputesRange := by
  intro off len d s htables hlen hd
  obtain ⟨t, ht, heffect⟩ := edcEffect_of_read htables hlen hd
  exact ⟨_, exec_of_effect_ok (i := .edc off len) heffect, rfl, rfl, ⟨rfl, ht⟩, rfl⟩

end Sys2Proof.Machine

/-! ### Check symbols as weighted field sums (R130, R132, R142) -/

namespace Sys2Proof.Machine

theorem xorSum_xor (n : Nat) (f g : Nat → Byte) :
    (xorSum n fun k => f k ^^^ g k) = xorSum n f ^^^ xorSum n g := by
  induction n with
  | zero => exact BitVec.xor_self.symm
  | succ n ih => rw [xorSum, xorSum, xorSum, ih]; ac_rfl

theorem xorSum_eq_zero {n : Nat} {f : Nat → Byte} (h : ∀ k < n, f k = 0#8) : xorSum n f = 0#8 := by
  induction n with
  | zero => rfl
  | succ n ih => rw [xorSum, ih fun k hk => h k (by omega), h n (by omega), BitVec.xor_zero]

/-- A sum with fixed weights is additive in its data. -/
theorem xorSum_gfMul_xor (n : Nat) (x y w : Nat → Byte) :
    (xorSum n fun k => gfMul (x k ^^^ y k) (w k)) =
      (xorSum n fun k => gfMul (x k) (w k)) ^^^ xorSum n fun k => gfMul (y k) (w k) := by
  rw [← xorSum_xor]
  exact xorSum_congr fun k _ => gfMul_isAdditive_left (w k) (x k) (y k)

/-- Settles O35: both symbols are sums with fixed weights over the cells of their data. -/
theorem parityIsLinear : Obligations.ParityIsLinear := fun c _ _ _ =>
  ⟨xorSum_gfMul_xor 24 _ _ fun k => c (19 + k), xorSum_gfMul_xor 43 _ _ c,
    xorSum_eq_zero fun _ _ => gfMul_zero_left _, xorSum_eq_zero fun _ _ => gfMul_zero_left _⟩

/-! ### The cells of the traversals, each once (R133, R136, R139) -/

/-- The BUF cells the first `n` pairs of a pass read, in order: both bytes of every traversal step. -/
def parityCells (steps : Nat → List (Nat × Nat)) (n : Nat) : List Nat :=
  (List.range n).flatMap fun i => (steps i).flatMap fun ro => [ro.2, ro.2 + 1]

theorem mem_parityCells {steps : Nat → List (Nat × Nat)} {n a : Nat} :
    a ∈ parityCells steps n ↔ ∃ i ∈ List.range n, ∃ ro ∈ steps i, a = ro.2 ∨ a = ro.2 + 1 := by
  simp only [parityCells, List.mem_flatMap, List.mem_cons, List.not_mem_nil, or_false]

theorem length_parityCells {steps : Nat → List (Nat × Nat)} {n m : Nat} (h : ∀ i < n, (steps i).length = m) :
    (parityCells steps n).length = n * (m * 2) := by
  have pair : ∀ i ∈ List.range n, ((steps i).flatMap fun ro => [ro.2, ro.2 + 1]).length = m * 2 := fun i hi => by
    simp [List.length_flatMap, h i (List.mem_range.1 hi)]
  rw [parityCells, List.length_flatMap, List.map_congr_left pair]
  simp

/-- A pass whose traversals reach every cell of 12..11+c, in no more steps than that takes, reads just those, each once. -/
theorem parityCells_perm {steps : Nat → List (Nat × Nat)} {n m c : Nat} (hlen : ∀ i < n, (steps i).length = m)
    (hcount : n * (m * 2) = c)
    (cover : ∀ {a}, 12 ≤ a → a ≤ 11 + c → ∃ i ∈ List.range n, ∃ ro ∈ steps i, a = ro.2 ∨ a = ro.2 + 1) :
    (List.range' 12 c).Perm (parityCells steps n) := by
  have sub : List.range' 12 c ⊆ parityCells steps n := fun a ha => by
    obtain ⟨h1, h2⟩ := List.mem_range'_1.1 ha
    exact mem_parityCells.2 (cover h1 (by omega))
  refine (List.subperm_of_subset List.nodup_range' sub).perm_of_length_le ?_
  rw [length_parityCells hlen, hcount, List.length_range']

/-- Settles O34: 43 pairs of 24 steps cover 12..2075, and 26 pairs of 43 steps cover 12..2247, with no step to spare. -/
theorem parityReadsEachCellOnce : Obligations.ParityReadsEachCellOnce := by
  have pPerm : (List.range' 12 2064).Perm (parityCells pSteps 43) :=
    parityCells_perm (m := 24) (fun i _ => by simp [pSteps]) rfl pSteps_cover
  have qPerm : (List.range' 12 2236).Perm (parityCells qSteps 26) :=
    parityCells_perm (m := 43) (fun i hi => by simp [qSteps_eq hi]) rfl qSteps_cover
  refine ⟨pPerm.nodup List.nodup_range', fun a => ?_, qPerm.nodup List.nodup_range', fun a => ?_⟩
  · exact pPerm.mem_iff.symm.trans (List.mem_range'_1.trans (by omega))
  · exact qPerm.mem_iff.symm.trans (List.mem_range'_1.trans (by omega))

/-! ### What PPAR and QPAR write (R134, R135, R137, R138) -/

/-- A column number is twice its pair's plus its stream's. -/
theorem pSymbol_pair (c d : Nat → Byte) (j : Nat) :
    pSymbol c d j = xorSum 24 fun k => gfMul (d (12 + 2 * (j / 2) + 86 * k + j % 2)) (c (19 + k)) :=
  xorSum_congr fun k _ => by rw [show 12 + j + 86 * k = 12 + 2 * (j / 2) + 86 * k + j % 2 by omega]

/-- With its read set written, a parity effect is the table build and then a pass that leaves, for the column or diagonal
`j`, the V1 sum at `base + j` and the V0 sum `half` cells later. -/
theorem parityEffect_of_read {s : State} {d : Nat → Byte} {base half n m : Nat} (row : Nat → Nat)
    (off : Nat → Nat → Nat) (htables : TablesOk s) (hd : Holds s 12 (base - 1) d) (hn : 2 * n ≤ half)
    (hstep : ∀ i < n, ∀ k < m, row k < 43 ∧ 12 ≤ off i k ∧ off i k + 1 < base) :
    ∃ t, (ensureTables s >>= fun s =>
        (List.range n).foldlM (parityPair (fun i => (List.range m).map fun k => (row k, off i k)) base half) s) = .ok t ∧
      TablesBuilt t ∧
      ∀ j < 2 * n,
        t.buf.read (base + j) = some (xorSum m fun k => gfMul (d (off (j / 2) k + j % 2)) (v1At (row k))) ∧
        t.buf.read (base + half + j) = some (xorSum m fun k => gfMul (d (off (j / 2) k + j % 2)) (v0At (row k))) := by
  obtain ⟨tb, htb, hbuild⟩ := ensureTables_of_ok htables
  obtain ⟨t, hpass, hrest, _, hsymbols⟩ := parityPass (s := setTables tb s) row off m htb hd n hn hstep
  refine ⟨t, by rw [hbuild, eff_bind_ok, hpass], ?_, fun j hj => ?_⟩
  · rw [hrest]
    exact ⟨rfl, htb⟩
  · have split (a : Nat) : a + 2 * (j / 2) + j % 2 = a + j := by omega
    simpa only [split] using hsymbols (j / 2) (by omega) (j % 2) (Nat.mod_lt _ (by omega))

theorem pparEffect_of_read {s : State} {d : Nat → Byte} (htables : TablesOk s) (hd : Holds s 12 2075 d) :
    ∃ t, pparEffect s = .ok t ∧ TablesBuilt t ∧ ∀ m < 86,
      t.buf.read (2076 + m) = some (pSymbol v1At d m) ∧ t.buf.read (2162 + m) = some (pSymbol v0At d m) := by
  simp only [pSymbol_pair]
  exact parityEffect_of_read (base := 2076) (n := 43) (m := 24) (fun k => 19 + k) (fun i k => 12 + 2 * i + 86 * k) htables
    hd (by omega) fun i hi k hk => by omega

theorem qparEffect_of_read {s : State} {d : Nat → Byte} (htables : TablesOk s) (hd : Holds s 12 2247 d) :
    ∃ t, qparEffect s = .ok t ∧ TablesBuilt t ∧ ∀ m < 52,
      t.buf.read (2248 + m) = some (qSymbol v1At d m) ∧ t.buf.read (2300 + m) = some (qSymbol v0At d m) := by
  simp only [qparEffect, foldlM_qSteps]
  exact parityEffect_of_read (base := 2248) (n := 26) (m := 43) (fun k => k) qOffset htables hd (by omega)
    fun i hi k hk => by simp only [qOffset]; omega

/-- A command that writes no EDC_RESULT and whose effect succeeds completes with it, inside its frame (R42, R68). -/
theorem exec_of_effect_ok_frame {i : Instr} (hi : i = .init ∨ i = .ppar ∨ i = .qpar ∨ i = .hdr) {s t : State}
    (h : effectOf i s = .ok t) :
    exec i s = .next (complete .none t) ∧ (∀ a, writesCell i a = false → t.buf.read a = s.buf.read a) ∧
      t.edcResult = s.edcResult ∧ CompletedFrom s (complete .none t) := by
  have hexec := exec_of_effect_ok h
  obtain ⟨hout, hrest, _, hedc⟩ := commandWritesOnlyItsCells _ _ _ hexec
  exact ⟨hexec, hout, hedc hi, hrest⟩

/-- Settles O32: the symbols are those of the effect, and the rest is PPAR's frame. -/
theorem pparWritesCheckSymbols : Obligations.PparWritesCheckSymbols := by
  intro d s htables hd
  obtain ⟨t, heffect, hbuilt, hsymbols⟩ := pparEffect_of_read htables hd
  obtain ⟨hexec, hout, hedc, hrest⟩ := exec_of_effect_ok_frame (i := .ppar) (by simp) heffect
  exact ⟨_, hexec, hsymbols, fun a ha => hout a (decide_eq_false (by omega)), hedc, hbuilt, hrest⟩

/-- Settles O33: the symbols are those of the effect, and the rest is QPAR's frame. -/
theorem qparWritesCheckSymbols : Obligations.QparWritesCheckSymbols := by
  intro d s htables hd
  obtain ⟨t, heffect, hbuilt, hsymbols⟩ := qparEffect_of_read htables hd
  obtain ⟨hexec, hout, hedc, hrest⟩ := exec_of_effect_ok_frame (i := .qpar) (by simp) heffect
  exact ⟨_, hexec, hsymbols, fun a ha => hout a (decide_eq_false (by omega)), hedc, hbuilt, hrest⟩

/-! ### The columns and diagonals are codewords (R96, R140, R141) -/

/-- The coefficients solve the two check equations of a single data symbol 1 in row `r`, whose power is α^(44 - r). -/
theorem coefficient_checks : ∀ r < 43, 0x01#8 ^^^ v1At r ^^^ v0At r = 0#8 ∧
    alphaPow (44 - r) ^^^ gfMul 0x02#8 (v1At r) ^^^ v0At r = 0#8 := by
  simp only [v1At, v0At, vectorV1_eq, vectorV0_eq]
  decide +kernel

/-- Multiplication by the generator moves to the second factor. -/
theorem gfMul_gfMul_generator (x v : Byte) : gfMul (gfMul x v) 0x02#8 = gfMul x (gfMul 0x02#8 v) := by
  rw [gfMul_comm, gfMul_comm x v, ← gfMul_generator_assoc, gfMul_comm]

/-- Data at the rows `row` together with their V1 and V0 sums meet both check equations: they do for each data symbol on
its own, and the equations are additive. -/
theorem checkSymbols_codeword {n : Nat} (x : Nat → Byte) {row : Nat → Nat} (hrow : ∀ k < n, row k < 43) {p0 p1 : Byte}
    (h0 : p0 = xorSum n fun k => gfMul (x k) (v1At (row k))) (h1 : p1 = xorSum n fun k => gfMul (x k) (v0At (row k))) :
    xorSum n x ^^^ p0 ^^^ p1 = 0#8 ∧
      (xorSum n fun k => gfMul (x k) (alphaPow (44 - row k))) ^^^ gfMul p0 (alphaPow 1) ^^^ p1 = 0#8 := by
  have generator : gfMul p0 (alphaPow 1) = xorSum n fun k => gfMul (x k) (gfMul 0x02#8 (v1At (row k))) := by
    obtain ⟨_, pow1, _⟩ := alphaPow_named
    rw [h0, pow1, (gfMul_isAdditive_left _).map_xorSum]
    exact xorSum_congr fun k _ => gfMul_gfMul_generator _ _
  rw [generator, h0, h1, ← xorSum_xor, ← xorSum_xor, ← xorSum_xor, ← xorSum_xor]
  refine ⟨xorSum_eq_zero fun k hk => ?_, xorSum_eq_zero fun k hk => ?_⟩
  · obtain ⟨sum, _⟩ := coefficient_checks _ (hrow k hk)
    have unit : gfMul (x k) 0x01#8 = x k := (gfMul_comm _ _).trans (gfMul_one_left _)
    calc x k ^^^ gfMul (x k) (v1At (row k)) ^^^ gfMul (x k) (v0At (row k))
      _ = gfMul (x k) (0x01#8 ^^^ v1At (row k) ^^^ v0At (row k)) := by
        rw [gfMul_isAdditive_right, gfMul_isAdditive_right, unit]
      _ = 0#8 := by rw [sum, gfMul_zero_right]
  · obtain ⟨_, weightedSum⟩ := coefficient_checks _ (hrow k hk)
    rw [← gfMul_isAdditive_right, ← gfMul_isAdditive_right, weightedSum, gfMul_zero_right]

/-- Settles O36: PPAR's symbols are the V1 and V0 sums over the rows 19 + k, whose powers are α^(25 - k). -/
theorem pparColumnsAreCodewords : Obligations.PparColumnsAreCodewords := by
  intro d s t htables hd hexec m hm
  obtain ⟨t', hexec', hsymbols, _⟩ := pparWritesCheckSymbols d s htables hd
  obtain rfl := Host.Outcome.next.inj (hexec.symm.trans hexec')
  have power (k : Nat) : 25 - k = 44 - (19 + k) := by omega
  simp only [power]
  obtain ⟨hp0, hp1⟩ := hsymbols m hm
  exact ⟨_, _, hp0, hp1, checkSymbols_codeword _ (fun k hk => by omega) rfl rfl⟩

/-- Settles O37: QPAR's symbols are the V1 and V0 sums over the rows k. -/
theorem qparDiagonalsAreCodewords : Obligations.QparDiagonalsAreCodewords := by
  intro d s t htables hd hexec i hi h hh
  obtain ⟨t', hexec', hsymbols, _⟩ := qparWritesCheckSymbols d s htables hd
  obtain rfl := Host.Outcome.next.inj (hexec.symm.trans hexec')
  obtain ⟨hp0, hp1⟩ := hsymbols (2 * i + h) (by omega)
  have symbol (c : Nat → Byte) : qSymbol c d (2 * i + h) =
      xorSum 43 fun k => gfMul (d (12 + (86 * i + 88 * k) % 2236 + h)) (c k) := by
    simp only [qSymbol, qOffset, show (2 * i + h) / 2 = i by omega, show (2 * i + h) % 2 = h by omega]
  exact ⟨_, _, hp0, hp1, checkSymbols_codeword _ (fun k hk => hk) (symbol v1At) (symbol v0At)⟩

end Sys2Proof.Machine

/-! ### The timecode and its digits (R150, R152) -/

namespace Sys2Proof.Machine

/-- The two nibbles of a BCD byte as a number. -/
theorem toNat_bcd {v : Nat} (hv : v < 100) : (bcd v).toNat = v / 10 * 16 + v % 10 := by
  have tens : v / 10 % 2 ^ 4 = v / 10 := Nat.mod_eq_of_lt (by omega)
  have ones : v % 10 % 2 ^ 4 = v % 10 := Nat.mod_eq_of_lt (by omega)
  rw [bcd, BitVec.toNat_append, BitVec.toNat_ofNat, BitVec.toNat_ofNat, tens, ones,
    ← Nat.shiftLeft_add_eq_or_of_lt (by omega), Nat.shiftLeft_eq]

/-- Settles O39: the nibbles of a value below 100 are its two decimal digits. -/
theorem bcdHoldsTwoDigits : Obligations.BcdHoldsTwoDigits :=
  ⟨fun _ hv => ⟨toNat_bcd hv, by omega, by omega⟩, rfl, rfl, rfl, rfl, rfl⟩

/-- Settles O40: minute, second and frame are quotient and remainders of LBA + 150 by 4500 = 60 * 75 and by 75. -/
theorem timecodeRange : Obligations.TimecodeRange := by
  intro l
  simp only [timecode]
  omega

/-! ### What HDR writes (R153, R154) -/

/-- Reading anywhere after HDR's writes. -/
theorem read_writeHeader (l : Nat) (s : State) (a : Nat) :
    (writeHeader l s).buf.read a =
      if a < 16 then (Config.sync ++ headerBytes l)[a]?
      else if 2064 ≤ a ∧ a ≤ 2351 then some 0x00#8
      else s.buf.read a := by
  have length : (Config.sync ++ headerBytes l).length = 16 := rfl
  simp only [writeHeader, writeBuf_buf, Memory.read_writeBytes, length, List.length_replicate]
  by_cases hzero : 2064 ≤ a ∧ a ≤ 2351
  · rw [if_pos (by omega), if_neg (by omega), if_pos hzero, List.getElem?_replicate, if_pos (by omega)]
  · rw [if_neg (by omega), if_neg hzero]
    simp

/-- The bytes of the sync pattern between its first and its last (R153). -/
theorem sync_inner (l : Nat) {a : Nat} (h1 : 1 ≤ a) (h2 : a ≤ 10) :
    (Config.sync ++ headerBytes l)[a]? = some 0xFF#8 := by
  interval_cases a <;> rfl

/-- Settles O38: HDR completes with its header written, each conjunct one range of cells or one field. -/
theorem hdrWritesFixedFields : Obligations.HdrWritesFixedFields := by
  intro s l hl hmax
  have heffect := hdrEffect_of_lba hl hmax
  have cell := read_writeHeader l.toNat s
  generalize writeHeader l.toNat s = t at heffect cell
  obtain ⟨hexec, hout, hedc, hrest⟩ := exec_of_effect_ok_frame (i := .hdr) (by simp) heffect
  obtain ⟨htv, htables⟩ := effectOf_tables (i := .hdr) (.inr rfl) heffect
  have head {a : Nat} {b : Byte} (ha : a < 16) (hb : (Config.sync ++ headerBytes l.toNat)[a]? = some b) :
      t.buf.read a = some b := by
    rw [cell, if_pos ha, hb]
  refine ⟨_, hexec, head (by omega) rfl, fun a h1 h2 => head (by omega) (sync_inner _ h1 h2), head (by omega) rfl,
    head (by omega) rfl, head (by omega) rfl, head (by omega) rfl, head (by omega) rfl, fun a h1 h2 => ?_,
    fun a ha => hout a (decide_eq_false (by omega)), htables, htv, hedc, hrest⟩
  rw [complete_buf, cell, if_neg (by omega), if_pos ⟨h1, h2⟩]

/-! ### ENCODE as the sequence of four effects (R155, R156) -/

theorem valueAt_eq_ok {α : Type} {loc : Loc} {o : Option α} {v : α} : valueAt loc o = .ok v ↔ o = some v := by
  cases o <;> simp

theorem checkLength_eq_ok {n : Word} {r : Unit} (h : checkLength n = .ok r) : n = 2048#32 := by
  unfold checkLength at h
  split at h
  · assumption
  · cases h

theorem checkLba_eq_ok {l : Word} {r : Unit} (h : checkLba l = .ok r) : l.toNat ≤ 449849 := by
  unfold checkLba at h
  split at h
  · next hle => exact BitVec.le_def.1 hle
  · cases h

/-- HDR goes on only with a legal LBA, and then writes its header. -/
theorem hdrEffect_eq_ok_iff {s t : State} :
    hdrEffect s = .ok t ↔ ∃ l, s.lba = some l ∧ l.toNat ≤ 449849 ∧ t = writeHeader l.toNat s := by
  refine ⟨fun h => ?_, fun ⟨l, hl, hmax, ht⟩ => ht ▸ hdrEffect_of_lba hl hmax⟩
  obtain ⟨l, hread, h⟩ := eff_bind_eq_ok.1 h
  obtain ⟨_, hcheck, h⟩ := eff_bind_eq_ok.1 h
  exact ⟨l, valueAt_eq_ok.1 hread, checkLba_eq_ok hcheck, (Except.ok.inj h).symm⟩

/-- EDCW builds the tables itself, so after HDR's writes it makes no difference that the guard ran before them. -/
theorem edcwEffect_writeHeader_of_guard {s s' : State} (l : Nat) (h : ensureTables s = .ok s') :
    edcwEffect (writeHeader l s') = edcwEffect (writeHeader l s) := by
  obtain ⟨_, rfl⟩ | ⟨htv, tb, htb, rfl⟩ := ensureTables_cases h
  · rfl
  · have guard : ensureTables (writeHeader l s) = .ok (setTables tb (writeHeader l s)) := by
      simp [ensureTables, htv, htb]
    rw [writeHeader_setTables]
    exact effectOf_setTables (i := .edcw) (by simp) guard

/-- Past its checks ENCODE is HDR's writes, EDCW, PPAR and QPAR, whatever the tables hold. -/
theorem encodeEffect_of_legal {s : State} {l : Word} (hd : s.dlen = some 2048#32) (hl : s.lba = some l)
    (hmax : l.toNat ≤ 449849) : encodeEffect s =
      (edcwEffect (writeHeader l.toNat s) >>= fun s => pparEffect s >>= qparEffect) := by
  obtain ⟨s', hguard⟩ := ensureTables_ok s
  have lba : s'.lba = some l := by
    obtain ⟨_, rfl⟩ | ⟨_, _, _, rfl⟩ := ensureTables_cases hguard <;> exact hl
  rw [encodeEffect, readDlen, hd, valueAt_some, eff_bind_ok, checkLength_ok, eff_bind_ok, readLba, hl, valueAt_some,
    eff_bind_ok, checkLba_ok hmax, eff_bind_ok, hguard, eff_bind_ok, hdrEffect_of_lba lba hmax, eff_bind_ok,
    edcwEffect_writeHeader_of_guard _ hguard]

/-- HDR, EDCW, PPAR and QPAR, run in that order from `s`, have their effects and leave `s1`, `s2`, `s3` and `u`. -/
structure SectorRun (s s1 s2 s3 u : State) : Prop where
  hdr : hdrEffect s = .ok s1
  edcw : edcwEffect s1 = .ok s2
  ppar : pparEffect s2 = .ok s3
  qpar : qparEffect s3 = .ok u

/-- ENCODE has its effect exactly when DLEN = 2048 and the four commands have theirs. -/
theorem encodeEffect_eq_ok_iff {s u : State} :
    encodeEffect s = .ok u ↔ s.dlen = some 2048#32 ∧ ∃ s1 s2 s3, SectorRun s s1 s2 s3 u := by
  refine ⟨fun h => ?_, fun ⟨hd, s1, s2, s3, run⟩ => ?_⟩
  · obtain ⟨n, hdlen, checked⟩ := eff_bind_eq_ok.1 h
    obtain ⟨_, hlength, checked⟩ := eff_bind_eq_ok.1 checked
    obtain ⟨l, hlba, checked⟩ := eff_bind_eq_ok.1 checked
    obtain ⟨_, hmax, _⟩ := eff_bind_eq_ok.1 checked
    have hd : s.dlen = some 2048#32 := checkLength_eq_ok hlength ▸ valueAt_eq_ok.1 hdlen
    replace hlba := valueAt_eq_ok.1 hlba
    replace hmax := checkLba_eq_ok hmax
    rw [encodeEffect_of_legal hd hlba hmax] at h
    obtain ⟨s2, hedcw, h⟩ := eff_bind_eq_ok.1 h
    obtain ⟨s3, hppar, hqpar⟩ := eff_bind_eq_ok.1 h
    exact ⟨hd, _, s2, s3, hdrEffect_of_lba hlba hmax, hedcw, hppar, hqpar⟩
  · obtain ⟨l, hl, hmax, rfl⟩ := hdrEffect_eq_ok_iff.1 run.hdr
    rw [encodeEffect_of_legal hd hl hmax, run.edcw, eff_bind_ok, run.ppar, eff_bind_ok, run.qpar]

/-- A command completes normally exactly when its effect succeeds. -/
theorem exec_completes_iff {i : Instr} {s t : State} :
    (exec i s = .next t ∧ t.err = .none) ↔ ∃ u, effectOf i s = .ok u ∧ t = complete .none u := by
  refine ⟨fun ⟨h, herr⟩ => ?_, fun ⟨u, hu, ht⟩ => ht ▸ ⟨exec_of_effect_ok hu, rfl⟩⟩
  obtain ⟨u, hu, ht, _⟩ | ⟨hbad, _⟩ := exec_eq_next h
  · exact ⟨u, hu, ht⟩
  · rw [herr] at hbad
    simp at hbad

/-- Settles O44: the effects are the same, and no command sees the completion update of the one before. -/
theorem encodeEqualsCommandSequence : Obligations.EncodeEqualsCommandSequence := by
  intro s t
  refine exec_completes_iff.trans ⟨fun ⟨u, hu, ht⟩ => ?_, fun ⟨hd, t1, t2, t3, h1, e1, h2, e2, h3, e3, h4, e4⟩ => ?_⟩
  · obtain ⟨hd, s1, s2, s3, run⟩ := encodeEffect_eq_ok_iff.1 hu
    subst ht
    have after {i : Instr} {v w : State} (h : effectOf i v = .ok w) :
        exec i (complete .none v) = .next (complete .none w) := (exec_complete i _ v).trans (exec_of_effect_ok h)
    exact ⟨hd, _, _, _, exec_of_effect_ok (i := .hdr) run.hdr, rfl, after (i := .edcw) run.edcw, rfl,
      after (i := .ppar) run.ppar, rfl, after (i := .qpar) run.qpar, rfl⟩
  · obtain ⟨s1, run1, rfl⟩ := exec_completes_iff.1 ⟨h1, e1⟩
    rw [exec_complete] at h2
    obtain ⟨s2, run2, rfl⟩ := exec_completes_iff.1 ⟨h2, e2⟩
    rw [exec_complete] at h3
    obtain ⟨s3, run3, rfl⟩ := exec_completes_iff.1 ⟨h3, e3⟩
    rw [exec_complete] at h4
    obtain ⟨u, run4, ht⟩ := exec_completes_iff.1 ⟨h4, e4⟩
    exact ⟨u, encodeEffect_eq_ok_iff.2 ⟨hd, s1, s2, s3, run1, run2, run3, run4⟩, ht⟩

/-! ### Written cells (R26) -/

/-- The byte a cell holds, and 0 where it holds none: the data of a range all of whose cells are written. -/
def bufByte (s : State) (a : Nat) : Byte := (s.buf.read a).getD 0#8

theorem holds_bufByte {s : State} {lo hi : Nat} (h : ∀ a, lo ≤ a → a ≤ hi → (s.buf.read a).isSome) :
    Holds s lo hi (bufByte s) := by
  intro a h1 h2
  obtain ⟨b, hb⟩ := Option.isSome_iff_exists.1 (h a h1 h2)
  rw [bufByte, hb, Option.getD_some]

theorem byte_of_holds {s : State} {lo hi : Nat} {x : Nat → Byte} (hx : Holds s lo hi x) {a : Nat} {b : Byte} (h1 : lo ≤ a)
    (h2 : a ≤ hi) (hb : s.buf.read a = some b) : x a = b := Option.some.inj ((hx a h1 h2).symm.trans hb)

/-- A write of BUF takes no cell's value away. -/
theorem writeBuf_isSome {s : State} (a : Nat) (bs : List Byte) {x : Nat} (h : (s.buf.read x).isSome) :
    ((writeBuf s a bs).buf.read x).isSome := by
  rw [writeBuf_buf, Memory.read_writeBytes]
  split
  · rw [List.getElem?_eq_getElem (by omega)]
    rfl
  · exact h

theorem ensureTables_buf {s t : State} (h : ensureTables s = .ok t) : t.buf = s.buf := by
  obtain ⟨_, rfl⟩ | ⟨_, _, _, rfl⟩ := ensureTables_cases h <;> rfl

theorem edcwEffect_isSome {s t : State} (h : edcwEffect s = .ok t) {x : Nat} (hx : (s.buf.read x).isSome) :
    (t.buf.read x).isSome := by
  obtain ⟨u, hu, h⟩ := eff_bind_eq_ok.1 h
  obtain ⟨_, _, h⟩ := eff_bind_eq_ok.1 h
  obtain ⟨e, _, h⟩ := eff_bind_eq_ok.1 h
  obtain rfl := Except.ok.inj h
  exact writeBuf_isSome (s := u) _ _ (ensureTables_buf hu ▸ hx)

/-- A parity effect, the table guard and then a pass, takes no cell's value away. -/
theorem parityEffect_isSome {steps : Nat → List (Nat × Nat)} {base half : Nat} {l : List Nat} {s t : State}
    (h : (ensureTables s >>= fun s => l.foldlM (parityPair steps base half) s) = .ok t) {x : Nat}
    (hx : (s.buf.read x).isSome) : (t.buf.read x).isSome := by
  obtain ⟨u, hu, h⟩ := eff_bind_eq_ok.1 h
  refine foldlM_keeps (I := fun v => (v.buf.read x).isSome) (fun v i w hv hw => ?_) (ensureTables_buf hu ▸ hx) h
  obtain ⟨ab, _, hw⟩ := eff_bind_eq_ok.1 hw
  obtain rfl := Except.ok.inj hw
  exact writeBuf_isSome _ _ (writeBuf_isSome _ _ hv)

/-- A range that could be read is written. -/
theorem isSome_of_readRange {s : State} {off len : Nat} {bs : List Byte} (h : readRange s off len = .ok bs) :
    ∀ k < len, (s.buf.read (off + k)).isSome := by
  intro k
  induction k using Nat.strongRecOn with
  | ind k ih =>
    intro hk
    by_contra hnone
    rw [readRange_of_none hk (by simpa using hnone) fun j hj => ih j hj (by omega)] at h
    cases h

/-- EDCW goes on only if its whole input is written (R121). -/
theorem isSome_of_edcwEffect {s t : State} (h : edcwEffect s = .ok t) {a : Nat} (ha : a ≤ 2063) :
    (s.buf.read a).isSome := by
  obtain ⟨u, hu, h⟩ := eff_bind_eq_ok.1 h
  obtain ⟨_, hrange, _⟩ := eff_bind_eq_ok.1 h
  have written := isSome_of_readRange hrange a (by omega)
  rwa [Nat.zero_add, ensureTables_buf hu] at written

/-- HDR leaves every cell of the sector written, once the user data are. -/
theorem writeHeader_isSome {s : State} (l : Nat) (hdata : ∀ a, 16 ≤ a → a ≤ 2063 → (s.buf.read a).isSome) {a : Nat}
    (ha : a ≤ 2351) : ((writeHeader l s).buf.read a).isSome := by
  by_cases hlow : a < 16
  · exact read_writeHeader_isSome l s hlow
  · rw [read_writeHeader, if_neg hlow]
    split
    · rfl
    · exact hdata a (by omega) (by omega)

/-! ### The sector a run of the four commands leaves (R153 to R157) -/

/-- With its input in BUF, EDCW's checksum stands in EDC_RESULT and, little-endian, in BUF[2064..2067]. -/
theorem edcwEffect_checksum {s t : State} {x : Nat → Byte} (htables : TablesOk s) (hx : Holds s 0 2063 x)
    (h : edcwEffect s = .ok t) {e : Word} (he : e = edcOf (bytesFrom x 0 2064)) :
    t.edcResult = some e ∧ ∀ k < 4, t.buf.read (2064 + k) = some (wordByte e k) := by
  obtain ⟨tb, _, heffect⟩ := edcwEffect_of_read htables hx he
  obtain rfl := Except.ok.inj (heffect.symm.trans h)
  refine ⟨rfl, fun k hk => (Memory.read_writeBytes s.buf 2064 _ _).trans ?_⟩
  rw [if_pos (by simp only [List.length_cons, List.length_nil]; omega), Nat.add_sub_cancel_left]
  interval_cases k <;> rfl

/-- `x` is a whole sector for the LBA `l`, with the checksum `e`. -/
structure ValidSector (l : Nat) (x : Nat → Byte) (e : Word) : Prop where
  head : ∀ a < 16, (Config.sync ++ headerBytes l)[a]? = some (x a)
  checksum : e = edcOf (bytesFrom x 0 2064)
  edc : ∀ k < 4, x (2064 + k) = wordByte e k
  zeros : ∀ a, 2068 ≤ a → a ≤ 2075 → x a = 0x00#8
  p : ∀ m < 86, x (2076 + m) = pSymbol v1At x m ∧ x (2162 + m) = pSymbol v0At x m
  q : ∀ m < 52, x (2248 + m) = qSymbol v1At x m ∧ x (2300 + m) = qSymbol v0At x m

theorem bytesFrom_congr {d d' : Nat → Byte} {lo n : Nat} (h : ∀ k < n, d (lo + k) = d' (lo + k)) :
    bytesFrom d lo n = bytesFrom d' lo n :=
  List.map_congr_left fun k hk => h k (List.mem_range.1 hk)

/-- A P symbol reads no cell outside 12..2075 (R139). -/
theorem pSymbol_congr {c d d' : Nat → Byte} (h : ∀ a, 12 ≤ a → a ≤ 2075 → d a = d' a) {m : Nat} (hm : m < 86) :
    pSymbol c d m = pSymbol c d' m :=
  xorSum_congr fun k hk => by rw [h _ (by omega) (by omega)]

/-- A Q symbol reads no cell outside 12..2247 (R139). -/
theorem qSymbol_congr {c d d' : Nat → Byte} (h : ∀ a, 12 ≤ a → a ≤ 2247 → d a = d' a) {m : Nat} :
    qSymbol c d m = qSymbol c d' m :=
  xorSum_congr fun k hk => by simp only [qOffset]; rw [h _ (by omega) (by omega)]

/-- Sectors that agree below a block of check symbols and on its V1 and V0 halves agree through it. -/
theorem agree_through_symbols {x x' : Nat → Byte} {base n : Nat} (below : ∀ a < base, x a = x' a)
    (symbols : ∀ m < n, x (base + m) = x' (base + m) ∧ x (base + n + m) = x' (base + n + m)) :
    ∀ a < base + 2 * n, x a = x' a := by
  intro a ha
  by_cases hbelow : a < base
  · exact below a hbelow
  by_cases hv1 : a < base + n
  · obtain ⟨m, rfl⟩ := Nat.exists_eq_add_of_le (show base ≤ a by omega)
    exact (symbols m (by omega)).1
  · obtain ⟨m, rfl⟩ := Nat.exists_eq_add_of_le (show base + n ≤ a by omega)
    exact (symbols m (by omega)).2

/-- The LBA and the user data determine the whole sector and its checksum. -/
theorem ValidSector.eq_of_data {l : Nat} {x x' : Nat → Byte} {e e' : Word} (hs : ValidSector l x e)
    (hs' : ValidSector l x' e') (hdata : ∀ a, 16 ≤ a → a ≤ 2063 → x a = x' a) :
    e = e' ∧ ∀ a < 2352, x a = x' a := by
  have input : ∀ a ≤ 2063, x a = x' a := fun a ha => by
    by_cases hhead : a < 16
    · exact Option.some.inj ((hs.head a hhead).symm.trans (hs'.head a hhead))
    · exact hdata a (by omega) ha
  have checksum : e = e' := by
    rw [hs.checksum, hs'.checksum, bytesFrom_congr fun k hk => input _ (by omega)]
  have covered : ∀ a < 2076, x a = x' a := fun a ha => by
    by_cases hinput : a ≤ 2063
    · exact input a hinput
    by_cases hedc : a ≤ 2067
    · obtain ⟨k, rfl⟩ := Nat.exists_eq_add_of_le (show 2064 ≤ a by omega)
      rw [hs.edc k (by omega), hs'.edc k (by omega), checksum]
    · rw [hs.zeros a (by omega) (by omega), hs'.zeros a (by omega) (by omega)]
  have throughP : ∀ a < 2076 + 2 * 86, x a = x' a := agree_through_symbols covered fun m hm => by
    have symbol (c : Nat → Byte) : pSymbol c x m = pSymbol c x' m :=
      pSymbol_congr (fun a _ h => covered a (by omega)) hm
    obtain ⟨h1, h0⟩ := hs.p m hm
    obtain ⟨h1', h0'⟩ := hs'.p m hm
    exact ⟨by rw [h1, h1', symbol], by rw [h0, h0', symbol]⟩
  refine ⟨checksum, agree_through_symbols (base := 2248) (n := 52) throughP fun m hm => ?_⟩
  have symbol (c : Nat → Byte) : qSymbol c x m = qSymbol c x' m := qSymbol_congr fun a _ h => throughP a (by omega)
  obtain ⟨h1, h0⟩ := hs.q m hm
  obtain ⟨h1', h0'⟩ := hs'.q m hm
  exact ⟨by rw [h1, h1', symbol], by rw [h0, h0', symbol]⟩

namespace SectorRun

variable {s s1 s2 s3 u : State}

/-- A run leaves every cell of the sector written. -/
theorem isSome (run : SectorRun s s1 s2 s3 u) {a : Nat} (ha : a ≤ 2351) : (u.buf.read a).isSome := by
  obtain ⟨l, _, _, rfl⟩ := hdrEffect_eq_ok_iff.1 run.hdr
  have data : ∀ a, 16 ≤ a → a ≤ 2063 → (s.buf.read a).isSome := fun a h1 h2 => by
    have written := isSome_of_edcwEffect run.edcw h2
    rwa [read_writeHeader, if_neg (by omega), if_neg (by omega)] at written
  exact parityEffect_isSome run.qpar (parityEffect_isSome run.ppar
    (edcwEffect_isSome run.edcw (writeHeader_isSome _ data ha)))

/-- Each command leaves to the end of the run the cells that those after it do not write (R68). -/
theorem holds_between (run : SectorRun s s1 s2 s3 u) {x : Nat → Byte} (hx : Holds u 0 2351 x) :
    Holds s3 0 2247 x ∧ Holds s2 0 2075 x ∧ Holds s1 0 2063 x ∧ Holds s1 2068 2075 x := by
  have holds3 : Holds s3 0 2247 x := fun a h1 h2 =>
    ((qparEffect_frame run.qpar).out a (decide_eq_false (by omega))).symm.trans (hx a h1 (by omega))
  have holds2 : Holds s2 0 2075 x := fun a h1 h2 =>
    ((pparEffect_frame run.ppar).out a (decide_eq_false (by omega))).symm.trans (holds3 a h1 (by omega))
  have out1 {a : Nat} (ha : a < 2064 ∨ 2067 < a) : s1.buf.read a = s2.buf.read a :=
    ((edcwEffect_frame run.edcw).out a (decide_eq_false (by omega))).symm
  exact ⟨holds3, holds2, fun a h1 h2 => (out1 (by omega)).trans (holds2 a h1 (by omega)),
    fun a h1 h2 => (out1 (by omega)).trans (holds2 a (by omega) h2)⟩

/-- TV guards the tables all through a run. -/
theorem tablesOk (run : SectorRun s s1 s2 s3 u) (htables : TablesOk s) : TablesOk s1 ∧ TablesOk s2 ∧ TablesOk s3 := by
  have tables1 := (hdrEffect_frame run.hdr).tablesOk htables
  have tables2 := (edcwEffect_frame run.edcw).tablesOk tables1
  exact ⟨tables1, tables2, (pparEffect_frame run.ppar).tablesOk tables2⟩

/-- What BUF holds after a run is a sector for LBA, and EDC_RESULT its checksum; the tables are built. -/
theorem validSector (run : SectorRun s s1 s2 s3 u) (htables : TablesOk s) {l : Word} (hl : s.lba = some l)
    {x : Nat → Byte} (hx : Holds u 0 2351 x) :
    ∃ e, ValidSector l.toNat x e ∧ u.edcResult = some e ∧ TablesBuilt u := by
  obtain ⟨tables1, tables2, tables3⟩ := run.tablesOk htables
  obtain ⟨holds3, holds2, input1, zeros1⟩ := run.holds_between hx
  obtain ⟨l', hl', _, rfl⟩ := hdrEffect_eq_ok_iff.1 run.hdr
  obtain rfl := Option.some.inj (hl.symm.trans hl')
  obtain ⟨hresult, hedc⟩ := edcwEffect_checksum tables1 input1 run.edcw rfl
  obtain ⟨t, hp, _, psymbols⟩ := pparEffect_of_read tables2 fun a _ ha => holds2 a (by omega) ha
  obtain rfl := Except.ok.inj (hp.symm.trans run.ppar)
  obtain ⟨t', hq, hbuilt, qsymbols⟩ := qparEffect_of_read tables3 fun a _ ha => holds3 a (by omega) ha
  obtain rfl := Except.ok.inj (hq.symm.trans run.qpar)
  have result : t'.edcResult = s2.edcResult :=
    (effectOf_edcResult (i := .qpar) (by simp) run.qpar).trans (effectOf_edcResult (i := .ppar) (by simp) run.ppar)
  refine ⟨_, ⟨fun a ha => ?_, rfl, fun k hk => ?_, fun a h1 h2 => ?_, fun m hm => ?_, fun m hm => ?_⟩,
    result.trans hresult, hbuilt⟩
  · rw [← input1 a (by omega) (by omega), read_writeHeader, if_pos ha]
  · exact byte_of_holds holds2 (by omega) (by omega) (hedc k hk)
  · refine byte_of_holds zeros1 h1 h2 ?_
    rw [read_writeHeader, if_neg (by omega), if_pos (by omega)]
  · obtain ⟨h1, h0⟩ := psymbols m hm
    exact ⟨byte_of_holds holds3 (by omega) (by omega) h1, byte_of_holds holds3 (by omega) (by omega) h0⟩
  · obtain ⟨h1, h0⟩ := qsymbols m hm
    exact ⟨byte_of_holds hx (by omega) (by omega) h1, byte_of_holds hx (by omega) (by omega) h0⟩

/-- With a legal LBA and the user data written, the four commands have their effects. -/
theorem exists_of_data {l : Word} (htables : TablesOk s) (hl : s.lba = some l) (hmax : l.toNat ≤ 449849)
    (hdata : ∀ a, 16 ≤ a → a ≤ 2063 → (s.buf.read a).isSome) : ∃ s1 s2 s3 u, SectorRun s s1 s2 s3 u := by
  have tables1 := (writeHeader_frame l.toNat s).tablesOk htables
  have written1 {a : Nat} (ha : a ≤ 2351) := writeHeader_isSome (s := s) l.toNat hdata ha
  obtain ⟨_, _, hedcw⟩ := edcwEffect_of_read tables1 (holds_bufByte fun a _ ha => written1 (by omega)) rfl
  have tables2 := (edcwEffect_frame hedcw).tablesOk tables1
  have written2 {a : Nat} (ha : a ≤ 2351) := edcwEffect_isSome hedcw (written1 ha)
  obtain ⟨s3, hppar, _⟩ := pparEffect_of_read tables2 (holds_bufByte fun a _ ha => written2 (by omega))
  have tables3 := (pparEffect_frame hppar).tablesOk tables2
  have written3 {a : Nat} (ha : a ≤ 2351) := parityEffect_isSome hppar (written2 ha)
  obtain ⟨u, hqpar, _⟩ := qparEffect_of_read tables3 (holds_bufByte fun a _ ha => written3 (by omega))
  exact ⟨_, _, s3, u, hdrEffect_of_lba hl hmax, hedcw, hppar, hqpar⟩

end SectorRun

/-- ENCODE leaves the user data, and whatever a buffer lists above the sector, as they were (R68). -/
theorem read_exec_encode {s t : State} (h : exec .encode s = .next t) {a : Nat}
    (ha : (16 ≤ a ∧ a ≤ 2063) ∨ 2351 < a) : t.buf.read a = s.buf.read a := by
  obtain ⟨hout, _⟩ := commandWritesOnlyItsCells _ _ _ h
  exact hout a (decide_eq_false (by omega))

/-- Where ENCODE completes normally, DLEN is 2048 and LBA legal; BUF holds a sector for that LBA and EDC_RESULT its
checksum. -/
theorem exec_encode_completes {s t : State} (htables : TablesOk s) (h : exec .encode s = .next t)
    (herr : t.err = .none) :
    s.dlen = some 2048#32 ∧ ∃ l x e, s.lba = some l ∧ l.toNat ≤ 449849 ∧ Holds t 0 2351 x ∧
      ValidSector l.toNat x e ∧ t.edcResult = some e ∧ TablesBuilt t := by
  obtain ⟨u, hu, rfl⟩ := exec_completes_iff.1 ⟨h, herr⟩
  obtain ⟨hd, s1, s2, s3, run⟩ := encodeEffect_eq_ok_iff.1 hu
  obtain ⟨l, hl, hmax, _⟩ := hdrEffect_eq_ok_iff.1 run.hdr
  have sector : Holds u 0 2351 (bufByte u) := holds_bufByte fun a _ ha => run.isSome ha
  obtain ⟨e, hvalid, hresult, hbuilt⟩ := run.validSector htables hl sector
  exact ⟨hd, l, bufByte u, e, hl, hmax, sector, hvalid, hresult, hbuilt⟩

/-- With DLEN = 2048, a legal LBA and the user data written, ENCODE completes normally. -/
theorem exec_encode_of_data {s : State} {l : Word} (htables : TablesOk s) (hd : s.dlen = some 2048#32)
    (hl : s.lba = some l) (hmax : l.toNat ≤ 449849) (hdata : ∀ a, 16 ≤ a → a ≤ 2063 → (s.buf.read a).isSome) :
    ∃ t, exec .encode s = .next t ∧ t.err = .none := by
  obtain ⟨s1, s2, s3, u, run⟩ := SectorRun.exists_of_data htables hl hmax hdata
  exact ⟨_, exec_completes_iff.2 ⟨u, encodeEffect_eq_ok_iff.2 ⟨hd, s1, s2, s3, run⟩, rfl⟩⟩

/-- Settles O43: ENCODE completes with a valid sector, whose user data are those before it. -/
theorem encodeBuildsSector : Obligations.EncodeBuildsSector := by
  intro s l d htables hd hl hmax hdata
  obtain ⟨t, hexec, herr⟩ := exec_encode_of_data htables hd hl hmax fun a h1 h2 => by rw [hdata a h1 h2]; rfl
  obtain ⟨_, l', x, e, hl', _, hx, hvalid, hresult, hbuilt⟩ := exec_encode_completes htables hexec herr
  obtain rfl := Option.some.inj (hl.symm.trans hl')
  obtain ⟨_, hrest, _⟩ := commandWritesOnlyItsCells _ _ _ hexec
  have head {a : Nat} {b : Byte} (ha : a < 16) (hb : (Config.sync ++ headerBytes l.toNat)[a]? = some b) : x a = b :=
    Option.some.inj ((hvalid.head a ha).symm.trans hb)
  refine ⟨t, x, e, hexec, hx, head (by omega) rfl, fun a h1 h2 => head (by omega) (sync_inner _ h1 h2), head (by omega) rfl,
    head (by omega) rfl, head (by omega) rfl, head (by omega) rfl, head (by omega) rfl, fun a h1 h2 => ?_, hvalid.checksum,
    hvalid.edc, hvalid.zeros, hvalid.p, hvalid.q, hresult, hbuilt, fun a ha => read_exec_encode hexec (.inr ha), ?_⟩
  · exact byte_of_holds hx (by omega) (by omega) ((read_exec_encode hexec (.inl ⟨h1, h2⟩)).trans (hdata a h1 h2))
  · rw [herr] at hrest
    exact hrest

/-- Settles O45: the two sectors are valid for one LBA and have the same user data, so they are the same sector. -/
theorem encodeDependsOnlyOnInputs : Obligations.EncodeDependsOnlyOnInputs := by
  intro s s' t t' htables htables' hlba hdata hexec hexec' herr herr'
  obtain ⟨_, l, x, e, hl, _, hx, hvalid, hresult, _⟩ := exec_encode_completes htables hexec herr
  obtain ⟨_, l', x', e', hl', _, hx', hvalid', hresult', _⟩ := exec_encode_completes htables' hexec' herr'
  obtain rfl := Option.some.inj (hl.symm.trans (hlba.trans hl'))
  have data : ∀ a, 16 ≤ a → a ≤ 2063 → x a = x' a := fun a h1 h2 => byte_of_holds hx (by omega) (by omega) <|
    calc t.buf.read a
      _ = s.buf.read a := read_exec_encode hexec (.inl ⟨h1, h2⟩)
      _ = s'.buf.read a := hdata a h1 h2
      _ = t'.buf.read a := (read_exec_encode hexec' (.inl ⟨h1, h2⟩)).symm
      _ = some (x' a) := hx' a (by omega) (by omega)
  obtain ⟨rfl, hsame⟩ := hvalid.eq_of_data hvalid' data
  refine ⟨fun a ha => ?_, hresult.trans hresult'.symm⟩
  rw [hx a (by omega) (by omega), hx' a (by omega) (by omega), hsame a ha]

/-- Settles O46: the first ENCODE leaves its inputs as they were, so the second completes, and with the same result. -/
theorem encodeTwiceIsEncode : Obligations.EncodeTwiceIsEncode := by
  intro s t htables hexec herr
  obtain ⟨hd, l, x, _, hl, hmax, hx, _, _, hbuilt⟩ := exec_encode_completes htables hexec herr
  obtain ⟨_, hrest, _⟩ := commandWritesOnlyItsCells _ _ _ hexec
  have lba : t.lba = s.lba := by rw [hrest]
  have dlen : t.dlen = s.dlen := by rw [hrest]
  have tables : TablesOk t := by
    obtain ⟨htv, htb⟩ := hbuilt
    simpa [TablesOk, htv] using htb
  obtain ⟨u, hexec', herr'⟩ := exec_encode_of_data tables (dlen.trans hd) (lba.trans hl) hmax fun a h1 h2 => by
    rw [hx a (by omega) (by omega)]; rfl
  obtain ⟨hsame, hresult⟩ := encodeDependsOnlyOnInputs s t t u htables tables lba.symm
    (fun a h1 h2 => (read_exec_encode hexec (.inl ⟨h1, h2⟩)).symm) hexec hexec' herr herr'
  refine ⟨u, hexec', herr', fun a => ?_, hresult.symm⟩
  by_cases ha : a < 2352
  · exact (hsame a ha).symm
  · exact read_exec_encode hexec' (.inr (by omega))

end Sys2Proof.Machine

/-! ### Command errors and model faults (R171 to R179) -/

namespace Sys2Proof.Machine

/-- A completion with an error is the completion update of the state the command started from: every effect carries NONE
(R176). -/
theorem exec_eq_complete_of_err {i : Instr} {s t : State} (h : exec i s = .next t) (herr : t.err ≠ .none) :
    t = complete t.err s := by
  obtain ⟨_, _, rfl, _⟩ | ⟨_, ht⟩ := exec_eq_next h
  · exact absurd rfl herr
  · exact ht

/-- The same of the completion step of any word in PEND: an ILLEGAL word has no effect to discard. -/
theorem engineStep_eq_complete_of_err {s t : State} (h : engineStep s = .next t) (herr : t.err ≠ .none) :
    t = complete t.err s := by
  obtain ⟨_, _, ⟨_, _, hexec⟩ | ⟨_, _, rfl⟩⟩ := engineStep_eq_next h
  · exact exec_eq_complete_of_err hexec herr
  · rfl

/-- Settles O16, for a command and for the completion step at the engine's turn. -/
theorem errorHasNoEffect : Obligations.ErrorHasNoEffect := by
  refine ⟨fun i s t => exec_eq_complete_of_err, fun s t hturn hstep ht => ?_⟩
  obtain ⟨_, hevent⟩ := event_of_step hstep ht
  rw [event_engine hturn] at hevent
  exact engineStep_eq_complete_of_err hevent

/-- A step that meets a model fault which ends the run records it, and the next step answers it. -/
theorem step_records_fault {s : State} {f : Fault} (hs : Running s) (hf : f.endsRun = true)
    (hstep : step s = recordOutcome s (.fault f)) :
    step s = .next (recordFault f s) ∧ step (recordFault f s) = .fault f :=
  ⟨hstep, step_of_ended (endedBy_recordFault hs hf)⟩

/-- A completion step that goes on records no fault. -/
theorem faults_of_engineStep {s t : State} (h : engineStep s = .next t) : t.faults = s.faults := by
  obtain ⟨_, _, _, _, hframe, rfl⟩ := engineStep_completes h
  rw [hframe.rest]
  rfl

/-- A step that goes on keeps every recorded fault, unless it is reset (R45, R177). -/
theorem faults_prefix_of_step {s t : State} (h : step s = .next t) :
    s.faults <+: t.faults ∨ ∃ rest, HostNext s .reset rest := by
  obtain ⟨hs, hevent | ⟨f, _, rfl⟩⟩ := step_eq_next h
  · obtain ⟨_, hengine⟩ | ⟨_, _, rfl⟩ | ⟨hturn, st, rest, hhost, hstmt⟩ := event_eq_next hevent
    · exact .inl (by rw [faults_of_engineStep hengine])
    · exact .inl List.prefix_rfl
    · by_cases hst : st = .reset
      · exact .inr ⟨rest, hs, hturn, hst ▸ hhost⟩
      · exact .inl (by rw [faults_of_runStmt hst hstmt, taken_faults])
  · exact .inl (List.prefix_append s.faults [f])

/-- Only a run that a recorded fault has ended answers a fault: one the step itself meets is recorded (R177). -/
theorem endedBy_of_step_fault {s : State} {f : Fault} (h : step s = .fault f) : s.endedBy = some f := by
  cases hs : s.endedBy with
  | none =>
    rw [step_of_running hs] at h
    cases hevent : event s <;> rw [hevent] at h <;> cases h
  | some g => exact congrArg some (Host.Outcome.fault.inj ((step_of_ended hs).symm.trans h))

/-- Settles O59: what a command or a host statement meets ends the run, and a run has ended only by a recorded fault. -/
theorem modelFaultIsRecordedForGood : Obligations.ModelFaultIsRecordedForGood := by
  refine ⟨fun s w i f hnext hi hexec => ?_, fun s st rest f hnext hstmt => ?_, fun s t => faults_prefix_of_step,
    fun s f hstep => ?_⟩
  · obtain ⟨loc, rfl⟩ := exec_eq_fault hexec
    exact step_records_fault hnext.1 rfl (by rw [step_of_engineNext hnext hi, hexec])
  · exact step_records_fault hnext.1 (runStmt_eq_fault hstmt) (by rw [step_of_hostNext hnext, hstmt])
  · have recorded : f ∈ s.faults := List.mem_of_find?_eq_some (endedBy_of_step_fault hstep)
    exact ⟨recorded, fun ⟨_, _, hnone⟩ => List.ne_nil_of_mem recorded hnone⟩

/-- A command whose effect raises an operand error completes with it and changes nothing else (R176). -/
theorem exec_of_effect_raised {i : Instr} {s : State} {e : Err} (he : e ≠ .invariant)
    (h : effectOf i s = .error (.raised e)) : exec i s = .next (complete e s) := by
  rw [exec_eq_finish, h, finish_raised s he]

theorem checkLba_bad {l : Word} (h : 449849 < l.toNat) : checkLba l = .error (.raised .lbaRange) :=
  if_neg (BitVec.not_le.2 (show Config.lbaMax < l from BitVec.lt_def.2 h))

theorem checkLength_bad {n : Word} (h : n ≠ 2048#32) : checkLength n = .error (.raised .sizeMismatch) := if_neg h

/-- Settles O30: the range check is EDC's first step. -/
theorem edcRangeError : Obligations.EdcRangeError := by
  refine ⟨rfl, fun off len s h => exec_of_effect_raised (by decide) ?_⟩
  rw [effectOf, edcEffect, checkRange_bad h, eff_bind_error]

/-- Settles O41: the LBA check is HDR's first, and ENCODE's after the length check. -/
theorem lbaRangeError : Obligations.LbaRangeError := by
  refine ⟨rfl, fun s l hl hmax => ⟨exec_of_effect_raised (by decide) ?_, fun hd =>
    exec_of_effect_raised (by decide) ?_⟩⟩
  · rw [effectOf, hdrEffect, readLba, hl, valueAt_some, eff_bind_ok, checkLba_bad hmax, eff_bind_error]
  · rw [effectOf, encodeEffect, readDlen, hd, valueAt_some, eff_bind_ok, checkLength_ok, eff_bind_ok, readLba, hl,
      valueAt_some, eff_bind_ok, checkLba_bad hmax, eff_bind_error]

/-- Settles O42: the length check comes before LBA and BUF are read. -/
theorem sizeMismatchError : Obligations.SizeMismatchError := by
  refine ⟨rfl, fun s n hd hn => exec_of_effect_raised (by decide) ?_⟩
  rw [effectOf, encodeEffect, readDlen, hd, valueAt_some, eff_bind_ok, checkLength_bad hn, eff_bind_error]

end Sys2Proof.Machine
